-- ==== Sys2Proof/Word.lean ====
section
/-! DEFINITION. The value types of the chip8js CORE: bytes, 16-bit words, 12-bit addresses, register, key
and nibble indices (00_scope.md R8, 10_state.md R20, 30_encoding.md R91). -/

namespace Sys2Proof

/-- An 8-bit value: a memory cell, a general register, a timer (10_state.md R20). -/
abbrev Byte := BitVec 8

/-- A 16-bit value: `PC`, `I`, a stack entry, an instruction word (10_state.md R20, 30_encoding.md R90). -/
abbrev Word := BitVec 16

/-- The 12-bit field `nnn` of an instruction (30_encoding.md R91, R93). -/
abbrev Addr12 := BitVec 12

/-- The index of a general register, `0x0` to `0xF` (10_state.md R22). -/
abbrev RegIx := Fin 16

/-- A 4-bit field of an instruction that is a count or a sub-code (30_encoding.md R91). -/
abbrev Nibble := Fin 16

/-- The code of a key, `0x0` to `0xF` (10_state.md R31, 46_frame_driver_input_gate.md R223). -/
abbrev KeyCode := Fin 16

end Sys2Proof
end

