-- ==== Sys2Proof/Syntax.lean ====
section
/-! DEFINITION. The instructions of the chip8js CORE: one constructor per row of spec/opcode_table.json
(30_encoding.md R106, R107), in the table's order, the four no-op rows among them. -/

namespace Sys2Proof

/-- An instruction word taken apart into its fields (30_encoding.md R91, R92). `x` and `y` are register
indices, `kk` an 8-bit and `nnn` a 12-bit immediate, `n` a nibble. The fields the decoder ignores
(`n` of 5xyN and 9xyN, `y` of the shifts, every field of the no-op rows) are kept, so that an
instruction is exactly one word. -/
inductive Instr where
  /-- CLS, 00E0 (44_display.md R189) -/
  | cls
  /-- RET, 00EE (41_flow.md R136) -/
  | ret
  /-- SYS, 0nnn other than 00E0 and 00EE: a no-op (41_flow.md R135) -/
  | sys (nnn : Addr12)
  /-- JP nnn, 1nnn (41_flow.md R137) -/
  | jp (nnn : Addr12)
  /-- CALL nnn, 2nnn (41_flow.md R138) -/
  | call (nnn : Addr12)
  /-- SE Vx, kk, 3xkk (41_flow.md R140) -/
  | seImm (x : RegIx) (kk : Byte)
  /-- SNE Vx, kk, 4xkk (41_flow.md R141) -/
  | sneImm (x : RegIx) (kk : Byte)
  /-- SE Vx, Vy, 5xyN for every N (41_flow.md R142, 30_encoding.md R96). DEDUCED, unsafe:
  notes/assumptions/10.md. -/
  | seReg (x y : RegIx) (n : Nibble)
  /-- LD Vx, kk, 6xkk (42_alu.md R150) -/
  | ldImm (x : RegIx) (kk : Byte)
  /-- ADD Vx, kk, 7xkk (42_alu.md R151) -/
  | addImm (x : RegIx) (kk : Byte)
  /-- LD Vx, Vy, 8xy0 (42_alu.md R152) -/
  | ldReg (x y : RegIx)
  /-- OR Vx, Vy, 8xy1 (42_alu.md R153) -/
  | or (x y : RegIx)
  /-- AND Vx, Vy, 8xy2 (42_alu.md R154) -/
  | and (x y : RegIx)
  /-- XOR Vx, Vy, 8xy3 (42_alu.md R155) -/
  | xor (x y : RegIx)
  /-- ADD Vx, Vy, 8xy4 (42_alu.md R156) -/
  | addReg (x y : RegIx)
  /-- SUB Vx, Vy, 8xy5 (42_alu.md R157) -/
  | sub (x y : RegIx)
  /-- SHR Vx, 8xy6; `y` is not read (42_alu.md R158) -/
  | shr (x y : RegIx)
  /-- SUBN Vx, Vy, 8xy7 (42_alu.md R159) -/
  | subn (x y : RegIx)
  /-- SHL Vx, 8xyE; `y` is not read (42_alu.md R160) -/
  | shl (x y : RegIx)
  /-- NOP_8, 8xyn for n in 8 to D and F: a no-op (30_encoding.md R100) -/
  | nop8 (x y : RegIx) (n : Nibble)
  /-- SNE Vx, Vy, 9xyN for every N (41_flow.md R143, 30_encoding.md R96). DEDUCED, unsafe:
  notes/assumptions/10.md. -/
  | sneReg (x y : RegIx) (n : Nibble)
  /-- LD I, nnn, Annn (43_index_memory.md R170) -/
  | ldI (nnn : Addr12)
  /-- JP V0, nnn, Bnnn (41_flow.md R139) -/
  | jpV0 (nnn : Addr12)
  /-- RND Vx, kk, Cxkk (42_alu.md R163) -/
  | rnd (x : RegIx) (kk : Byte)
  /-- DRW Vx, Vy, n, Dxyn (44_display.md R190) -/
  | drw (x y : RegIx) (n : Nibble)
  /-- SKP Vx, Ex9E (45_keys_timers.md R200) -/
  | skp (x : RegIx)
  /-- SKNP Vx, ExA1 (45_keys_timers.md R201) -/
  | sknp (x : RegIx)
  /-- NOP_E, Exkk for kk not 9E or A1: a no-op (30_encoding.md R100) -/
  | nopE (x : RegIx) (kk : Byte)
  /-- LD Vx, DT, Fx07 (45_keys_timers.md R202) -/
  | ldVxDt (x : RegIx)
  /-- LD Vx, K, Fx0A (45_keys_timers.md R203) -/
  | ldVxK (x : RegIx)
  /-- LD DT, Vx, Fx15 (45_keys_timers.md R204) -/
  | ldDtVx (x : RegIx)
  /-- LD ST, Vx, Fx18 (45_keys_timers.md R205) -/
  | ldStVx (x : RegIx)
  /-- ADD I, Vx, Fx1E (43_index_memory.md R171) -/
  | addI (x : RegIx)
  /-- LD F, Vx, Fx29 (43_index_memory.md R172) -/
  | ldF (x : RegIx)
  /-- LD B, Vx, Fx33 (43_index_memory.md R173) -/
  | ldB (x : RegIx)
  /-- LD [I], Vx, Fx55 (43_index_memory.md R175) -/
  | ldMemVx (x : RegIx)
  /-- LD Vx, [I], Fx65 (43_index_memory.md R176) -/
  | ldVxMem (x : RegIx)
  /-- NOP_F, Fxkk for kk none of the nine defined bytes: a no-op (30_encoding.md R100) -/
  | nopF (x : RegIx) (kk : Byte)
  deriving DecidableEq, Repr

end Sys2Proof
end

