-- ==== Sys2Proof/WellFormed.lean ====
section
/-! DEFINITION. Which terms of `Instr` stand for a word: a no-op row holds only the words no defined row of
its family takes, the first matching row winning (30_encoding.md R95 to R100, R107). -/

namespace Sys2Proof

/-- The low nibbles of family 8 that select an operation (30_encoding.md R97). -/
def definedSub8 (n : Nibble) : Bool := n.val ≤ 7 || n.val == 0xE

/-- The low bytes of family E that select an operation (30_encoding.md R98). -/
def definedSubE (kk : Byte) : Bool := kk == 0x9E || kk == 0xA1

/-- The low bytes of family F that select an operation (30_encoding.md R99). -/
def definedSubF (kk : Byte) : Bool :=
  [0x07, 0x0A, 0x15, 0x18, 0x1E, 0x29, 0x33, 0x55, 0x65].contains kk

/-- The three low digits of family 0 that select an operation (30_encoding.md R95). -/
def definedSub0 (nnn : Addr12) : Bool := nnn == 0x0E0 || nnn == 0x0EE

/-- The instruction stands for a word. Every field but those of the four no-op rows takes every value
of its width (10_state.md R22, 30_encoding.md R93). -/
def Instr.wellFormed : Instr → Bool
  | .sys nnn => !definedSub0 nnn
  | .nop8 _ _ n => !definedSub8 n
  | .nopE _ kk => !definedSubE kk
  | .nopF _ kk => !definedSubF kk
  | .cls | .ret | .jp _ | .call _ | .seImm _ _ | .sneImm _ _ | .seReg _ _ _ | .ldImm _ _ | .addImm _ _
  | .ldReg _ _ | .or _ _ | .and _ _ | .xor _ _ | .addReg _ _ | .sub _ _ | .shr _ _ | .subn _ _ | .shl _ _
  | .sneReg _ _ _ | .ldI _ | .jpV0 _ | .rnd _ _ | .drw _ _ _ | .skp _ | .sknp _ | .ldVxDt _ | .ldVxK _
  | .ldDtVx _ | .ldStVx _ | .addI _ | .ldF _ | .ldB _ | .ldMemVx _ | .ldVxMem _ => true

end Sys2Proof
end

