-- ==== Sys2Proof/Decode.lean ====
section
/-! DEFINITION. Decoding and encoding: the fields of a word, the two-level dispatch, the decoder over bytes
(total, rejecting by name), the encoder written from the format table, and the mask and match table the
dispatch is held against (30_encoding.md R90 to R107). -/

namespace Sys2Proof

/-! ### Fields of a word (30_encoding.md R91) -/

/-- `op = instr[15:12]` -/
def opField (w : Word) : Nibble := ⟨(w.extractLsb' 12 4).toNat, (w.extractLsb' 12 4).isLt⟩

/-- `x = instr[11:8]` -/
def xField (w : Word) : RegIx := ⟨(w.extractLsb' 8 4).toNat, (w.extractLsb' 8 4).isLt⟩

/-- `y = instr[7:4]` -/
def yField (w : Word) : RegIx := ⟨(w.extractLsb' 4 4).toNat, (w.extractLsb' 4 4).isLt⟩

/-- `n = instr[3:0]` -/
def nField (w : Word) : Nibble := ⟨(w.extractLsb' 0 4).toNat, (w.extractLsb' 0 4).isLt⟩

/-- `kk = instr[7:0]` -/
def kkField (w : Word) : Byte := w.extractLsb' 0 8

/-- `nnn = instr[11:0]` -/
def nnnField (w : Word) : Addr12 := w.extractLsb' 0 12

/-! ### The two-level dispatch -/

/-- Family 0 compares the whole word (30_encoding.md R95). -/
def decodeFamily0 (w : Word) : Instr :=
  if w = 0x00E0 then .cls else if w = 0x00EE then .ret else .sys (nnnField w)

/-- Family 8 dispatches on the low nibble (30_encoding.md R97). -/
def decodeFamily8 (x y : RegIx) (n : Nibble) : Instr :=
  if n = 0x0 then .ldReg x y else if n = 0x1 then .or x y else if n = 0x2 then .and x y
  else if n = 0x3 then .xor x y else if n = 0x4 then .addReg x y else if n = 0x5 then .sub x y
  else if n = 0x6 then .shr x y else if n = 0x7 then .subn x y else if n = 0xE then .shl x y
  else .nop8 x y n

/-- Family E dispatches on the low byte (30_encoding.md R98). -/
def decodeFamilyE (x : RegIx) (kk : Byte) : Instr :=
  if kk = 0x9E then .skp x else if kk = 0xA1 then .sknp x else .nopE x kk

/-- Family F dispatches on the low byte (30_encoding.md R99). -/
def decodeFamilyF (x : RegIx) (kk : Byte) : Instr :=
  if kk = 0x07 then .ldVxDt x else if kk = 0x0A then .ldVxK x else if kk = 0x15 then .ldDtVx x
  else if kk = 0x18 then .ldStVx x else if kk = 0x1E then .addI x else if kk = 0x29 then .ldF x
  else if kk = 0x33 then .ldB x else if kk = 0x55 then .ldMemVx x else if kk = 0x65 then .ldVxMem x
  else .nopF x kk

/-- The decoder of one word: dispatch on the high nibble, with a second level for families 0, 8, E and
F only (30_encoding.md R94, R96). Every word is an instruction (R101). The last arm is the one nibble
left, `0xF`. -/
def decodeWord (w : Word) : Instr :=
  match opField w with
  | 0x0 => decodeFamily0 w
  | 0x1 => .jp (nnnField w)
  | 0x2 => .call (nnnField w)
  | 0x3 => .seImm (xField w) (kkField w)
  | 0x4 => .sneImm (xField w) (kkField w)
  | 0x5 => .seReg (xField w) (yField w) (nField w)
  | 0x6 => .ldImm (xField w) (kkField w)
  | 0x7 => .addImm (xField w) (kkField w)
  | 0x8 => decodeFamily8 (xField w) (yField w) (nField w)
  | 0x9 => .sneReg (xField w) (yField w) (nField w)
  | 0xA => .ldI (nnnField w)
  | 0xB => .jpV0 (nnnField w)
  | 0xC => .rnd (xField w) (kkField w)
  | 0xD => .drw (xField w) (yField w) (nField w)
  | 0xE => decodeFamilyE (xField w) (kkField w)
  | _ => decodeFamilyF (xField w) (kkField w)

/-! ### Words and bytes -/

/-- A word from its two bytes, the byte at the lower address in bits 15 to 8 (20_memory.md R66). -/
def joinBytes (hi lo : Byte) : Word := hi ++ lo

/-- The byte of a word stored at the lower address (20_memory.md R66). -/
def highByte (w : Word) : Byte := w.extractLsb' 8 8

/-- The byte of a word stored at the higher address (20_memory.md R66). -/
def lowByte (w : Word) : Byte := w.extractLsb' 0 8

/-- The two bytes of a word in address order, high byte first (20_memory.md R66, 30_encoding.md R90). -/
def wordBytes (w : Word) : List Byte := [highByte w, lowByte w]

/-- Why the decoder of bytes refuses its input. -/
inductive DecodeError where
  /-- Fewer than the two bytes every instruction has (30_encoding.md R90). Never met in a run: a fetch
  supplies two bytes. Safe. -/
  | truncated
  deriving DecidableEq, Repr

/-- The decoder of bytes: one instruction and the bytes that follow it. Total; it refuses only an input
too short to hold a word, since no word is illegal (30_encoding.md R90, R101). -/
def decode : List Byte → Except DecodeError (Instr × List Byte)
  | hi :: lo :: rest => .ok (decodeWord (joinBytes hi lo), rest)
  | _ => .error .truncated

/-! ### The encoder (30_encoding.md R92, R106) -/

/-- A nibble as four bits. -/
def nibbleBits (n : Nibble) : BitVec 4 := BitVec.ofNat 4 n.val

/-- Format `NNN` -/
def formNNN (op : Nibble) (nnn : Addr12) : Word := nibbleBits op ++ nnn

/-- Formats `XKK` and `X` -/
def formXKK (op : Nibble) (x : RegIx) (kk : Byte) : Word := (nibbleBits op ++ nibbleBits x) ++ kk

/-- Formats `XYN` and `XY` -/
def formXYN (op : Nibble) (x y : RegIx) (n : Nibble) : Word :=
  (nibbleBits op ++ nibbleBits x) ++ (nibbleBits y ++ nibbleBits n)

/-- The word of an instruction (30_encoding.md R106 and, for the no-op rows, R107). -/
def encode : Instr → Word
  | .cls => 0x00E0
  | .ret => 0x00EE
  | .sys nnn => formNNN 0x0 nnn
  | .jp nnn => formNNN 0x1 nnn
  | .call nnn => formNNN 0x2 nnn
  | .seImm x kk => formXKK 0x3 x kk
  | .sneImm x kk => formXKK 0x4 x kk
  | .seReg x y n => formXYN 0x5 x y n
  | .ldImm x kk => formXKK 0x6 x kk
  | .addImm x kk => formXKK 0x7 x kk
  | .ldReg x y => formXYN 0x8 x y 0x0
  | .or x y => formXYN 0x8 x y 0x1
  | .and x y => formXYN 0x8 x y 0x2
  | .xor x y => formXYN 0x8 x y 0x3
  | .addReg x y => formXYN 0x8 x y 0x4
  | .sub x y => formXYN 0x8 x y 0x5
  | .shr x y => formXYN 0x8 x y 0x6
  | .subn x y => formXYN 0x8 x y 0x7
  | .shl x y => formXYN 0x8 x y 0xE
  | .nop8 x y n => formXYN 0x8 x y n
  | .sneReg x y n => formXYN 0x9 x y n
  | .ldI nnn => formNNN 0xA nnn
  | .jpV0 nnn => formNNN 0xB nnn
  | .rnd x kk => formXKK 0xC x kk
  | .drw x y n => formXYN 0xD x y n
  | .skp x => formXKK 0xE x 0x9E
  | .sknp x => formXKK 0xE x 0xA1
  | .nopE x kk => formXKK 0xE x kk
  | .ldVxDt x => formXKK 0xF x 0x07
  | .ldVxK x => formXKK 0xF x 0x0A
  | .ldDtVx x => formXKK 0xF x 0x15
  | .ldStVx x => formXKK 0xF x 0x18
  | .addI x => formXKK 0xF x 0x1E
  | .ldF x => formXKK 0xF x 0x29
  | .ldB x => formXKK 0xF x 0x33
  | .ldMemVx x => formXKK 0xF x 0x55
  | .ldVxMem x => formXKK 0xF x 0x65
  | .nopF x kk => formXKK 0xF x kk

/-- The bytes of an instruction in address order. -/
def encodeBytes (i : Instr) : List Byte := wordBytes (encode i)

/-! ### The opcode table as masks (30_encoding.md R106, R107) -/

/-- The row of spec/opcode_table.json an instruction belongs to, by its mnemonic. -/
def Instr.mnemonic : Instr → String
  | .cls => "CLS" | .ret => "RET" | .sys _ => "SYS" | .jp _ => "JP" | .call _ => "CALL"
  | .seImm _ _ => "SE_imm" | .sneImm _ _ => "SNE_imm" | .seReg _ _ _ => "SE_reg"
  | .ldImm _ _ => "LD_imm" | .addImm _ _ => "ADD_imm" | .ldReg _ _ => "LD_reg" | .or _ _ => "OR"
  | .and _ _ => "AND" | .xor _ _ => "XOR" | .addReg _ _ => "ADD_reg" | .sub _ _ => "SUB"
  | .shr _ _ => "SHR" | .subn _ _ => "SUBN" | .shl _ _ => "SHL" | .nop8 _ _ _ => "NOP_8"
  | .sneReg _ _ _ => "SNE_reg" | .ldI _ => "LD_I" | .jpV0 _ => "JP_V0" | .rnd _ _ => "RND"
  | .drw _ _ _ => "DRW" | .skp _ => "SKP" | .sknp _ => "SKNP" | .nopE _ _ => "NOP_E"
  | .ldVxDt _ => "LD_Vx_DT" | .ldVxK _ => "LD_Vx_K" | .ldDtVx _ => "LD_DT_Vx" | .ldStVx _ => "LD_ST_Vx"
  | .addI _ => "ADD_I" | .ldF _ => "LD_F" | .ldB _ => "LD_B" | .ldMemVx _ => "LD_mem_Vx"
  | .ldVxMem _ => "LD_Vx_mem" | .nopF _ _ => "NOP_F"

/-- A row of the opcode table. -/
structure OpcodeRow where
  mnemonic : String
  mask : Word
  value : Word
  deriving DecidableEq, Repr

/-- A word `w` selects the row when `w and mask = match` (30_encoding.md R106). -/
def OpcodeRow.selects (r : OpcodeRow) (w : Word) : Bool := w &&& r.mask == r.value

/-- Rows of families 0 to 7, in the table's order. -/
def opcodeRowsLow : List OpcodeRow :=
  [⟨"CLS", 0xFFFF, 0x00E0⟩, ⟨"RET", 0xFFFF, 0x00EE⟩, ⟨"SYS", 0xF000, 0x0000⟩, ⟨"JP", 0xF000, 0x1000⟩,
   ⟨"CALL", 0xF000, 0x2000⟩, ⟨"SE_imm", 0xF000, 0x3000⟩, ⟨"SNE_imm", 0xF000, 0x4000⟩,
   ⟨"SE_reg", 0xF000, 0x5000⟩, ⟨"LD_imm", 0xF000, 0x6000⟩, ⟨"ADD_imm", 0xF000, 0x7000⟩]

/-- Rows of family 8, in the table's order. -/
def opcodeRows8 : List OpcodeRow :=
  [⟨"LD_reg", 0xF00F, 0x8000⟩, ⟨"OR", 0xF00F, 0x8001⟩, ⟨"AND", 0xF00F, 0x8002⟩, ⟨"XOR", 0xF00F, 0x8003⟩,
   ⟨"ADD_reg", 0xF00F, 0x8004⟩, ⟨"SUB", 0xF00F, 0x8005⟩, ⟨"SHR", 0xF00F, 0x8006⟩,
   ⟨"SUBN", 0xF00F, 0x8007⟩, ⟨"SHL", 0xF00F, 0x800E⟩, ⟨"NOP_8", 0xF000, 0x8000⟩]

/-- Rows of families 9 to E, in the table's order. -/
def opcodeRowsHigh : List OpcodeRow :=
  [⟨"SNE_reg", 0xF000, 0x9000⟩, ⟨"LD_I", 0xF000, 0xA000⟩, ⟨"JP_V0", 0xF000, 0xB000⟩,
   ⟨"RND", 0xF000, 0xC000⟩, ⟨"DRW", 0xF000, 0xD000⟩, ⟨"SKP", 0xF0FF, 0xE09E⟩, ⟨"SKNP", 0xF0FF, 0xE0A1⟩,
   ⟨"NOP_E", 0xF000, 0xE000⟩]

/-- Rows of family F, in the table's order. -/
def opcodeRowsF : List OpcodeRow :=
  [⟨"LD_Vx_DT", 0xF0FF, 0xF007⟩, ⟨"LD_Vx_K", 0xF0FF, 0xF00A⟩, ⟨"LD_DT_Vx", 0xF0FF, 0xF015⟩,
   ⟨"LD_ST_Vx", 0xF0FF, 0xF018⟩, ⟨"ADD_I", 0xF0FF, 0xF01E⟩, ⟨"LD_F", 0xF0FF, 0xF029⟩,
   ⟨"LD_B", 0xF0FF, 0xF033⟩, ⟨"LD_mem_Vx", 0xF0FF, 0xF055⟩, ⟨"LD_Vx_mem", 0xF0FF, 0xF065⟩,
   ⟨"NOP_F", 0xF000, 0xF000⟩]

/-- The rows of spec/opcode_table.json in file order. -/
def opcodeRows : List OpcodeRow := opcodeRowsLow ++ opcodeRows8 ++ opcodeRowsHigh ++ opcodeRowsF

/-- The first row, in file order, that a word matches (30_encoding.md R106, R107). -/
def firstRow (w : Word) : Option OpcodeRow := opcodeRows.find? fun r => r.selects w

/-! ### The host's numbering of an opcode-table word -/

/-- The word the opcode table numbers `w` with `nbits` bits: bit 0 is the least significant bit of the
one word an instruction has, and every bit above `nbits` is 0. -/
def tableWord (nbits w : Nat) : Word := BitVec.ofNat 16 (w % 2 ^ nbits)

/-- The instruction the decoder reads from the bytes of an opcode-table word laid out in memory order;
none for more bits than an instruction has. -/
def decodeTableWord (nbits w : Nat) : Option Instr :=
  if nbits ≤ 16 then
    match decode (wordBytes (tableWord nbits w)) with
    | .ok (i, []) => some i
    | _ => none
  else none

end Sys2Proof
end

