-- ==== Sys2Proof/Config.lean ====
section
/-! DEFINITION. What is fixed for one CORE: the parameters of 00_scope.md R8, the default the model
offers for the open parameters `FONT` and `MEM_INIT` (R9), and the free value the random source yields. -/

namespace Sys2Proof.Config

/-- `MEM_SIZE`: 4096 bytes, addresses 0 to 4095 (00_scope.md R8, 20_memory.md R60). -/
abbrev memSize : Nat := 4096

/-- `PROGRAM_BASE`: where `load` writes and where `PC` starts (00_scope.md R8). -/
abbrev programBase : Nat := 0x200

/-- `MAX_PROGRAM`: the longest byte sequence `load` accepts (00_scope.md R8, R230). -/
abbrev maxProgram : Nat := 3584

/-- `FONT_SIZE`: the font occupies addresses 0 to 79 (00_scope.md R8, 20_memory.md R63). -/
abbrev fontSize : Nat := 80

/-- `GLYPH_STRIDE`: bytes per glyph (00_scope.md R8, 43_index_memory.md R172). -/
abbrev glyphStride : Nat := 5

/-- `SPEED`'s default: steps per tick (00_scope.md R8, 46_frame_driver_input_gate.md R217). -/
abbrev defaultSpeed : Nat := 10

/-- Glyphs 0 to 7 of the conventional font table (20_memory.md R64).
PRESUMED (notes/assumptions/2.md): the source gives no byte of `FONT`. Unsafe. -/
def fontLow : List Byte :=
  [0xF0, 0x90, 0x90, 0x90, 0xF0] ++ [0x20, 0x60, 0x20, 0x20, 0x70] ++
  [0xF0, 0x10, 0xF0, 0x80, 0xF0] ++ [0xF0, 0x10, 0xF0, 0x10, 0xF0] ++
  [0x90, 0x90, 0xF0, 0x10, 0x10] ++ [0xF0, 0x80, 0xF0, 0x10, 0xF0] ++
  [0xF0, 0x80, 0xF0, 0x90, 0xF0] ++ [0xF0, 0x10, 0x20, 0x40, 0x40]

/-- Glyphs 8 to F of the conventional font table (20_memory.md R64). PRESUMED, unsafe, as `fontLow`. -/
def fontHigh : List Byte :=
  [0xF0, 0x90, 0xF0, 0x90, 0xF0] ++ [0xF0, 0x90, 0xF0, 0x10, 0xF0] ++
  [0xF0, 0x90, 0xF0, 0x90, 0x90] ++ [0xE0, 0x90, 0xE0, 0x90, 0xE0] ++
  [0xF0, 0x80, 0x80, 0x80, 0xF0] ++ [0xE0, 0x90, 0x90, 0x90, 0xE0] ++
  [0xF0, 0x80, 0xF0, 0x80, 0xF0] ++ [0xF0, 0x80, 0xF0, 0x80, 0x80]

/-- The 80 bytes the model offers as the default of the open parameter `FONT` (00_scope.md R9, D15). -/
def font : List Byte := fontLow ++ fontHigh

/-- The random source: draw number `n` yields `randomByte n`, of which nothing is known
(42_alu.md R163, D11). A FREE VALUE (notes/assumptions/4.md): no body, so a claim about RND holds for
every sequence of bytes. DESIGN CHOICE (the form), safe. -/
opaque randomByte : Nat → Byte

end Sys2Proof.Config
end

