-- ==== Sys2Proof/Machine/State.lean ====
section
/-! DEFINITION. The state of the CORE as plain data: the thirteen components of 10_state.md R20, and three
fields that are the model's own (the draw counter of the random source, the host's schedule of events,
and the last reply to `load`). The reasons a step can stop, and the state after reset. -/

namespace Sys2Proof.Machine

/-- The six causes of a fault (60_exceptions.md R246); their codes are `FaultCause.code`. -/
inductive FaultCause where
  | fetchOutOfBounds
  | readOutOfBounds
  | writeOutOfBounds
  | stackOverflow
  | stackUnderflow
  | keyIndexOutOfRange
  deriving DecidableEq, Repr

/-- The record the fault latch holds (10_state.md R37). -/
structure FaultRecord where
  cause : FaultCause
  /-- the address of the faulting instruction -/
  pc : Word
  /-- the instruction word, 0 when the fetch itself faulted -/
  instr : Word
  /-- the value the table of R246 gives for the cause -/
  info : BitVec 17
  deriving DecidableEq, Repr

/-- The input-gate state `WAIT` (10_state.md R32). -/
inductive InputGate where
  | running
  | awaitingKey (x : RegIx)
  deriving DecidableEq, Repr

/-- The display: 32 rows of 64 pixels, `FB[y][x]` (10_state.md R33, 44_display.md R185). -/
abbrev Grid := Vector (Vector Bool 64) 32

/-- The events the host can present to the CORE (46_frame_driver_input_gate.md R215). -/
inductive Event where
  /-- the frame-paced sequencer, with the number of steps to run (R216 to R222) -/
  | tick (speed : Nat)
  /-- a press (`true`) or a release (`false`) of a key (R223 to R226) -/
  | key (code : KeyCode) (pressed : Bool)
  /-- R227 -/
  | reset
  /-- a byte sequence for addresses 0x200 and above (R229 to R231) -/
  | load (bytes : List Byte)
  /-- one instruction outside any tick (R233) -/
  | step
  deriving DecidableEq, Repr

/-- What `load` returns to the host (46_frame_driver_input_gate.md R215, R230). -/
inductive LoadReply where
  | ok
  | loadOutOfBounds
  deriving DecidableEq, Repr

/-- The state of the machine. -/
structure State where
  /-- `MEM`, in canonical form: the bytes that differ from what an unlisted address reads as, addresses
  strictly rising (R20, 20_memory.md R60) -/
  mem : List Host.Cell
  /-- `V[0x0]` to `V[0xF]` (R22) -/
  v : Vector Byte 16
  /-- `I` (R27) -/
  i : Word
  /-- `PC` (R25) -/
  pc : Word
  /-- `STACK[0]` to `STACK[15]` (R28) -/
  stack : Vector Word 16
  /-- `SP`, the number of entries in use, 0 to 16 (R29). DEDUCED, unsafe: notes/assumptions/13.md. -/
  sp : Fin 17
  /-- `DT` (R30) -/
  dt : Byte
  /-- `ST` (R30) -/
  st : Byte
  /-- `KEY[0x0]` to `KEY[0xF]`, true when the last transition was a press (R31) -/
  key : Vector Bool 16
  /-- `WAIT` (R32) -/
  wait : InputGate
  /-- `FB` (R33) -/
  fb : Grid
  /-- `TONE` (R36). DEDUCED: notes/assumptions/14.md. -/
  tone : Bool
  /-- `FAULT` (R37) -/
  fault : Option FaultRecord
  /-- The model's own: how many bytes the random source has yielded. DESIGN CHOICE, safe: notes/assumptions/4.md. -/
  draws : Nat
  /-- The model's own: the events the host will present, first one first. DESIGN CHOICE, safe:
  notes/assumptions/5.md. -/
  events : List Event
  /-- The model's own: what the last `load` returned to the host. DESIGN CHOICE, safe: notes/assumptions/6.md. -/
  loadReply : Option LoadReply
  deriving DecidableEq, Repr

/-- Why the model stops with no next state. No instruction does: every fault of the spec is recorded in
the latch `State.fault`, a next state (60_exceptions.md R252). -/
inductive Fault where
  /-- Raised by a tick event with `speed = 0`, which is outside the interface and has no move
  (46_frame_driver_input_gate.md R217, 93_implementation_defined.md U11). DESIGN CHOICE, safe: the model stops
  (notes/assumptions/8.md). -/
  | zeroSpeedTick
  deriving DecidableEq, Repr

/-- Why the model gives an instruction no meaning. -/
inductive Refusal where
  /-- Raised by an arm of `exec` whose instruction is not modelled; no arm is left so. Safe. -/
  | notModelled (mnemonic : String)
  deriving DecidableEq, Repr

/-- A display with every pixel unset. -/
def Grid.blank : Grid := Vector.replicate 32 (Vector.replicate 64 false)

/-- The state after power-on and reset (10_state.md R38, R40). Memory lists nothing, so it reads as the
default image of notes/assumptions/1.md and 2.md; `STACK`, for which the spec gives no value, holds
zeros (DESIGN CHOICE, notes/assumptions/3.md); no event is scheduled and no byte drawn. -/
def State.reset : State where
  mem := []
  v := Vector.replicate 16 0
  i := 0
  pc := 0x200
  stack := Vector.replicate 16 0
  sp := 0
  dt := 0
  st := 0
  key := Vector.replicate 16 false
  wait := .running
  fb := Grid.blank
  tone := false
  fault := none
  draws := 0
  events := []
  loadReply := none

end Sys2Proof.Machine
end

