-- ==== Sys2Proof/Machine/Ops.lean ====
section
/-! DEFINITION. The named operations over memory, registers, stack and display that the meanings share; taking
a fault, and the reset that is the only way out of one. -/

namespace Sys2Proof.Machine

/-! ### Memory (20_memory.md) -/

/-- What an address that nothing has written reads as: the default font at 0 to 79, else 0.
`FONT` and `MEM_INIT` are open in the spec (10_state.md R40, 20_memory.md R64, R73). DESIGN CHOICE and
PRESUMED, unsafe: notes/assumptions/1.md and 2.md. -/
def Memory.unlisted (a : Nat) : Byte := if a < 80 then Config.font.getD a 0 else 0

/-- The byte at address `a` (20_memory.md R74). -/
def Memory.read : List Host.Cell → Nat → Byte
  | [], a => Memory.unlisted a
  | (c, d) :: rest, a => if a = c then d else Memory.read rest a

/-- Set the byte at address `a`, keeping the canonical form. -/
def Memory.write : List Host.Cell → Nat → Byte → List Host.Cell
  | [], a, b => if b = Memory.unlisted a then [] else [(a, b)]
  | (c, d) :: rest, a, b =>
    if a < c then
      if b = Memory.unlisted a then (c, d) :: rest else (a, b) :: (c, d) :: rest
    else if a = c then
      if b = Memory.unlisted a then rest else (a, b) :: rest
    else (c, d) :: Memory.write rest a b

/-- Set consecutive bytes from address `a` up, in ascending order (20_memory.md R67). -/
def Memory.writeBytes : List Host.Cell → Nat → List Byte → List Host.Cell
  | m, _, [] => m
  | m, a, b :: bs => Memory.writeBytes (Memory.write m a b) (a + 1) bs

/-- The `n` bytes from address `a` up, in ascending order (20_memory.md R67). -/
def Memory.readBytes (m : List Host.Cell) : Nat → Nat → List Byte
  | _, 0 => []
  | a, n + 1 => Memory.read m a :: Memory.readBytes m (a + 1) n

/-- The canonical form from address `lo` on: addresses strictly rising, inside 0 to 4095, and no entry
equal to what an unlisted address reads as. -/
def Memory.wfFrom : Nat → List Host.Cell → Bool
  | _, [] => true
  | lo, (a, b) :: rest =>
    lo ≤ a && a < Config.memSize && b != Memory.unlisted a && Memory.wfFrom (a + 1) rest

/-- The canonical form of memory. -/
def Memory.wf (m : List Host.Cell) : Bool := Memory.wfFrom 0 m

/-- `MEM[a]` (10_state.md R20, 46_frame_driver_input_gate.md R232) -/
def State.readByte (s : State) (a : Nat) : Byte := Memory.read s.mem a

/-- The `n` bytes of `MEM` from `a` up. -/
def State.readBytes (s : State) (a n : Nat) : List Byte := Memory.readBytes s.mem a n

/-- Store bytes in `MEM` from `a` up; the caller has checked the range. -/
def State.writeBytes (s : State) (a : Nat) (bs : List Byte) : State :=
  { s with mem := Memory.writeBytes s.mem a bs }

/-! ### Registers -/

/-- `V[x]` (10_state.md R22) -/
def State.readV (s : State) (x : RegIx) : Byte := s.v[x]

/-- `V[x] <- b` (10_state.md R22). No register is hard-wired. -/
def State.writeV (s : State) (x : RegIx) (b : Byte) : State := { s with v := s.v.set x b }

/-- The flag register VF, V15 (10_state.md R23). -/
abbrev regVF : RegIx := 0xF

/-- `V[0xF] <- flag`, then `V[x] <- result`: the order of the two writes of 8xy4 to 8xy7 and 8xyE
(42_alu.md R161; the spec's decision D9, DEDUCED, unsafe: notes/assumptions/11.md). -/
def State.writeFlagThenV (s : State) (x : RegIx) (flag result : Byte) : State :=
  (s.writeV regVF flag).writeV x result

/-- `V[k] <- b` for the bytes given, from register `k` up (43_index_memory.md R176). -/
def Registers.load : Vector Byte 16 → Nat → List Byte → Vector Byte 16
  | v, _, [] => v
  | v, k, b :: bs => Registers.load (v.setIfInBounds k b) (k + 1) bs

/-- Load registers `V[0]` up from the bytes given. -/
def State.loadRegs (s : State) (bs : List Byte) : State := { s with v := Registers.load s.v 0 bs }

/-- The values of `V[0]` to `V[n-1]` (43_index_memory.md R175). -/
def State.firstRegs (s : State) (n : Nat) : List Byte := s.v.toList.take n

/-- `I <- w` (10_state.md R27) -/
def State.setI (s : State) (w : Word) : State := { s with i := w }

/-- `DT <- b` (10_state.md R30) -/
def State.setDt (s : State) (b : Byte) : State := { s with dt := b }

/-- `ST <- b` (10_state.md R30) -/
def State.setSt (s : State) (b : Byte) : State := { s with st := b }

/-- `WAIT <- g` (10_state.md R32) -/
def State.setWait (s : State) (g : InputGate) : State := { s with wait := g }

/-- `KEY[code] <- pressed` (10_state.md R31) -/
def State.setKey (s : State) (code : KeyCode) (pressed : Bool) : State :=
  { s with key := s.key.set code pressed }

/-- `KEY[k]` (10_state.md R31) -/
def State.readKey (s : State) (k : KeyCode) : Bool := s.key[k]

/-- `TONE <- b` (10_state.md R36) -/
def State.setTone (s : State) (b : Bool) : State := { s with tone := b }

/-! ### Program counter and stack -/

/-- `PC <- w` (10_state.md R25) -/
def State.setPc (s : State) (w : Word) : State := { s with pc := w }

/-- The advance of a step: `PC <- (PC + 2) mod 65536` (40_fetch_step.md R122). -/
def State.advance (s : State) : State := { s with pc := s.pc + 2 }

/-- A skip: `PC <- (PC + 2) mod 65536` when the condition holds (41_flow.md R144). -/
def State.skipIf (s : State) (c : Bool) : State := if c then { s with pc := s.pc + 2 } else s

/-- `STACK[SP] <- w; SP <- SP + 1`; none when the stack is full (10_state.md R29, 41_flow.md R138). -/
def State.push? (s : State) (w : Word) : Option State :=
  if h : s.sp.val < 16 then
    some { s with stack := s.stack.set s.sp.val w, sp := ⟨s.sp.val + 1, by omega⟩ }
  else none

/-- `SP <- SP - 1`, and the entry `STACK[SP]`, which stays in place; none when the stack is empty
(10_state.md R29, 41_flow.md R136). -/
def State.pop? (s : State) : Option (Word × State) :=
  if h : 0 < s.sp.val then
    some (s.stack[s.sp.val - 1], { s with sp := ⟨s.sp.val - 1, by omega⟩ })
  else none

/-! ### Display (44_display.md) -/

/-- `FB[py][px]` -/
def Grid.pixel (fb : Grid) (px : Fin 64) (py : Fin 32) : Bool := (fb[py])[px]

/-- `FB[py][px] <- b` -/
def Grid.setPixel (fb : Grid) (px : Fin 64) (py : Fin 32) (b : Bool) : Grid :=
  fb.set py ((fb[py]).set px b)

/-- The pixel at column `px`, row `py` (10_state.md R33). -/
def State.pixel (s : State) (px : Fin 64) (py : Fin 32) : Bool := s.fb.pixel px py

/-- Replace the display. -/
def State.setFb (s : State) (fb : Grid) : State := { s with fb := fb }

/-- The grid and the `erased` bit as the blit goes along. -/
abbrev Blit := Grid × Bool

/-- The column a sprite bit lands on: `(xs + c) mod 64` (44_display.md R187). -/
def blitColumn (xs : Byte) (c : Nat) : Fin 64 := Fin.ofNat 64 (xs.toNat + c)

/-- The row a sprite bit lands on: `(ys + r) mod 32` (44_display.md R187). -/
def blitLine (ys : Byte) (r : Nat) : Fin 32 := Fin.ofNat 32 (ys.toNat + r)

/-- Column `c` of a sprite row, the most significant bit being column 0 (44_display.md R187). -/
def spriteBit (row : Byte) (c : Nat) : Bool := row.getLsbD (7 - c)

/-- One sprite bit: XOR the target pixel with it, and note an erasure (44_display.md R187). -/
def blitBit (xs ys : Byte) (r : Nat) (row : Byte) (c : Nat) (p : Blit) : Blit :=
  let px := blitColumn xs c
  let py := blitLine ys r
  let bit := spriteBit row c
  let old := p.1.pixel px py
  (p.1.setPixel px py (xor old bit), p.2 || (bit && old))

/-- The eight bits of sprite row `r`, in ascending column order. -/
def blitRow (xs ys : Byte) (r : Nat) (row : Byte) (p : Blit) : Blit :=
  [0, 1, 2, 3, 4, 5, 6, 7].foldl (fun q c => blitBit xs ys r row c q) p

/-- The sprite rows from row number `r` on, in ascending order. -/
def blitRows (xs ys : Byte) : Nat → List Byte → Blit → Blit
  | _, [], p => p
  | r, row :: rows, p => blitRows xs ys (r + 1) rows (blitRow xs ys r row p)

/-- The blit primitive `draw(rows, xs, ys)` on a grid: the new grid and `erased` (44_display.md R187). -/
def draw (rows : List Byte) (xs ys : Byte) (fb : Grid) : Blit := blitRows xs ys 0 rows (fb, false)

/-! ### The random source -/

/-- Draw one byte from the random source: the free value of this draw, and the state in which the next
draw is another one (42_alu.md R163, D11). -/
def State.drawRandom (s : State) : Byte × State :=
  (Config.randomByte s.draws, { s with draws := s.draws + 1 })

/-! ### Faults (60_exceptions.md) -/

/-- The code of a cause (60_exceptions.md R246); 0 means no fault. -/
def FaultCause.code : FaultCause → Nat
  | .fetchOutOfBounds => 1
  | .readOutOfBounds => 2
  | .writeOutOfBounds => 3
  | .stackOverflow => 4
  | .stackUnderflow => 5
  | .keyIndexOutOfRange => 6

/-- The state in which the fault is recorded and nothing else is changed (60_exceptions.md R252). -/
def State.latchFault (s : State) (cause : FaultCause) (instr : Word) (info : Nat) : State :=
  { s with fault := some ⟨cause, s.pc, instr, BitVec.ofNat 17 info⟩ }

/-- Fault entry, given the state BEFORE the step: every write of the step is discarded, the advance of
`PC` included, and the latch records the cause, the address, the word and the value of the table of R246
(60_exceptions.md R252, 40_fetch_step.md R124; DEDUCED, safe: notes/assumptions/9.md). There is no vector and no handler; the step answers a
next state. -/
def State.takeFault (s : State) (cause : FaultCause) (instr : Word) (info : Nat) :
    Host.Outcome State Fault Refusal :=
  .next (s.latchFault cause instr info)

/-- The `reset` event, the only way out of a fault: there is no trap return (60_exceptions.md R257).
`MEM` and `STACK` are not written (46_frame_driver_input_gate.md R227); the model's own fields are kept, so
that draws do not repeat after a reset (notes/assumptions/4.md). -/
def State.resetEvent (s : State) : State :=
  { s with
    v := Vector.replicate 16 0
    i := 0
    pc := 0x200
    sp := 0
    dt := 0
    st := 0
    key := Vector.replicate 16 false
    wait := .running
    fb := Grid.blank
    tone := false
    fault := none }

end Sys2Proof.Machine
end

