-- ==== Sys2Proof/Machine/Operands.lean ====
section
/-! DEFINITION. The operand forms: zero-extended addresses, the effective address `I + k` and its bounds
check, the digits LD B stores, the address of a glyph (30_encoding.md R93, 20_memory.md R71, R72). -/

namespace Sys2Proof.Machine

/-- `zext_16(nnn)` (30_encoding.md R93) -/
def addrWord (nnn : Addr12) : Word := nnn.setWidth 16

/-- `zext_16` of a register's value (43_index_memory.md R171, 41_flow.md R139) -/
def byteWord (b : Byte) : Word := b.setWidth 16

/-- The effective address `I + k`, a natural number that is never reduced (20_memory.md R72, D28). -/
def State.effAddr (s : State) (k : Nat) : Nat := s.i.toNat + k

/-- The bounds check of an access to `count` bytes from `base` up: every address is in 0 to 4095. No
byte, no check (20_memory.md R71, R72). -/
def rangeFits (base count : Nat) : Bool := count == 0 || base + count ≤ Config.memSize

/-- The lowest address of a range that is out of bounds, `max(I, 4096)` (60_exceptions.md R246, R248). -/
def lowestOutOfRange (base : Nat) : Nat := max base Config.memSize

/-- The decimal digits of a byte: hundreds, tens, ones (43_index_memory.md R173). -/
def bcdDigits (b : Byte) : List Byte := [b / 100, (b / 10) % 10, b % 10]

/-- `zext_16(V[x]) × 5`, the address of a glyph (43_index_memory.md R172). -/
def glyphAddr (b : Byte) : Word := byteWord b * 5

/-- The number of bytes the block moves transfer, `x + 1` (43_index_memory.md R174). -/
def blockCount (x : RegIx) : Nat := x.val + 1

/-- The key a register names, none above 15 (45_keys_timers.md R200, D5). -/
def keyIndex? (b : Byte) : Option KeyCode := if h : b.toNat < 16 then some ⟨b.toNat, h⟩ else none

end Sys2Proof.Machine
end

