-- ==== Sys2Proof/Machine/Flags.lean ====
section
/-! DEFINITION. The flag computations: what the six instructions that write VF as a side effect put there
(10_state.md R23, 42_alu.md R162). -/

namespace Sys2Proof.Machine

/-- A flag as the value VF receives, 1 or 0 (10_state.md R23). -/
def flagByte (b : Bool) : Byte := if b then 1 else 0

/-- The carry out of an 8-bit addition: `sum > 255` (42_alu.md R156). -/
def carryFlag (a b : Byte) : Byte := flagByte (255 < a.toNat + b.toNat)

/-- No borrow in `a - b`: `a >= b`, unsigned (42_alu.md R157, R159). -/
def noBorrowFlag (a b : Byte) : Byte := flagByte (b.toNat ≤ a.toNat)

/-- The bit a right shift shifts out, bit 0 (42_alu.md R158). -/
def shiftRightFlag (a : Byte) : Byte := flagByte (a.getLsbD 0)

/-- The bit a left shift shifts out, bit 7 (42_alu.md R160). -/
def shiftLeftFlag (a : Byte) : Byte := flagByte (a.getLsbD 7)

/-- The collision flag of DRW (44_display.md R190). -/
def collisionFlag (erased : Bool) : Byte := flagByte erased

end Sys2Proof.Machine
end

