-- ==== Sys2Proof/Machine/Alu.lean ====
section
/-! DEFINITION. The meanings of the register load, arithmetic, logic, shift and random instructions
(42_alu.md). Byte arithmetic is modulo 256 (R162). -/

namespace Sys2Proof.Machine

/-- LD Vx, kk (42_alu.md R150). -/
def execLdImm (x : RegIx) (kk : Byte) (s : State) : Host.Outcome State Fault Refusal :=
  .next (s.advance.writeV x kk)

/-- ADD Vx, kk: VF is not written as a flag (42_alu.md R151). -/
def execAddImm (x : RegIx) (kk : Byte) (s : State) : Host.Outcome State Fault Refusal :=
  .next (s.advance.writeV x (s.readV x + kk))

/-- LD Vx, Vy (42_alu.md R152). -/
def execLdReg (x y : RegIx) (s : State) : Host.Outcome State Fault Refusal :=
  .next (s.advance.writeV x (s.readV y))

/-- OR Vx, Vy: VF is not written (42_alu.md R153). -/
def execOr (x y : RegIx) (s : State) : Host.Outcome State Fault Refusal :=
  .next (s.advance.writeV x (s.readV x ||| s.readV y))

/-- AND Vx, Vy: VF is not written (42_alu.md R154). -/
def execAnd (x y : RegIx) (s : State) : Host.Outcome State Fault Refusal :=
  .next (s.advance.writeV x (s.readV x &&& s.readV y))

/-- XOR Vx, Vy: VF is not written (42_alu.md R155). -/
def execXor (x y : RegIx) (s : State) : Host.Outcome State Fault Refusal :=
  .next (s.advance.writeV x (s.readV x ^^^ s.readV y))

/-- ADD Vx, Vy with the carry in VF (42_alu.md R156, R161). -/
def execAddReg (x y : RegIx) (s : State) : Host.Outcome State Fault Refusal :=
  let a := s.readV x
  let b := s.readV y
  .next (s.advance.writeFlagThenV x (carryFlag a b) (a + b))

/-- SUB Vx, Vy with no-borrow in VF (42_alu.md R157, R161). -/
def execSub (x y : RegIx) (s : State) : Host.Outcome State Fault Refusal :=
  let a := s.readV x
  let b := s.readV y
  .next (s.advance.writeFlagThenV x (noBorrowFlag a b) (a - b))

/-- SHR Vx: a logical shift of `V[x]` in place (42_alu.md R158, R161). -/
def execShr (x : RegIx) (s : State) : Host.Outcome State Fault Refusal :=
  let a := s.readV x
  .next (s.advance.writeFlagThenV x (shiftRightFlag a) (a >>> 1))

/-- SUBN Vx, Vy: `V[y] - V[x]` to `V[x]`, with no-borrow in VF (42_alu.md R159, R161). -/
def execSubn (x y : RegIx) (s : State) : Host.Outcome State Fault Refusal :=
  let a := s.readV x
  let b := s.readV y
  .next (s.advance.writeFlagThenV x (noBorrowFlag b a) (b - a))

/-- SHL Vx: `V[x]` in place (42_alu.md R160, R161). -/
def execShl (x : RegIx) (s : State) : Host.Outcome State Fault Refusal :=
  let a := s.readV x
  .next (s.advance.writeFlagThenV x (shiftLeftFlag a) (a <<< 1))

/-- RND Vx, kk: a fresh free byte masked by `kk` (42_alu.md R163). -/
def execRnd (x : RegIx) (kk : Byte) (s : State) : Host.Outcome State Fault Refusal :=
  let d := s.advance.drawRandom
  .next (d.2.writeV x (d.1 &&& kk))

end Sys2Proof.Machine
end

