-- ==== Sys2Proof/Machine/Display.lean ====
section
/-! DEFINITION. The meanings of the display instructions (44_display.md). -/

namespace Sys2Proof.Machine

/-- CLS: clear the display (44_display.md R186, R189). -/
def execCls (s : State) : Host.Outcome State Fault Refusal := .next (s.advance.setFb Grid.blank)

/-- DRW Vx, Vy, n: the coordinates are read first, the range is checked, the rows are read, the blit
runs, and VF receives the collision flag last (44_display.md R190, D26). -/
def execDrw (x y : RegIx) (n : Nibble) (s : State) : Host.Outcome State Fault Refusal :=
  if rangeFits (s.effAddr 0) n.val then
    let p := draw (s.readBytes (s.effAddr 0) n.val) (s.readV x) (s.readV y) s.fb
    .next ((s.advance.setFb p.1).writeV regVF (collisionFlag p.2))
  else s.takeFault .readOutOfBounds (encode (.drw x y n)) (lowestOutOfRange (s.effAddr 0))

end Sys2Proof.Machine
end

