-- ==== Sys2Proof/Machine/Flow.lean ====
section
/-! DEFINITION. The meanings of the control transfer instructions (41_flow.md) and of the no-op rows
(30_encoding.md R100). A meaning is given the state before the step, makes the advance of `PC` itself
(40_fetch_step.md R122), and hands that same state to `takeFault` when it faults (R124). -/

namespace Sys2Proof.Machine

/-- SYS nnn: no operation (41_flow.md R135). -/
def execSys (s : State) : Host.Outcome State Fault Refusal := .next s.advance

/-- The unmatched words of family 8: no operation (30_encoding.md R100). -/
def execNop8 (s : State) : Host.Outcome State Fault Refusal := .next s.advance

/-- The unmatched words of family E: no operation (30_encoding.md R100). -/
def execNopE (s : State) : Host.Outcome State Fault Refusal := .next s.advance

/-- The unmatched words of family F: no operation (30_encoding.md R100). -/
def execNopF (s : State) : Host.Outcome State Fault Refusal := .next s.advance

/-- RET (41_flow.md R136). -/
def execRet (s : State) : Host.Outcome State Fault Refusal :=
  match s.advance.pop? with
  | some (target, t) => .next (t.setPc target)
  | none => s.takeFault .stackUnderflow (encode .ret) 0

/-- JP nnn (41_flow.md R137). -/
def execJp (nnn : Addr12) (s : State) : Host.Outcome State Fault Refusal :=
  .next (s.advance.setPc (addrWord nnn))

/-- CALL nnn: the value pushed is the advanced `PC` (41_flow.md R138). -/
def execCall (nnn : Addr12) (s : State) : Host.Outcome State Fault Refusal :=
  match s.advance.push? s.advance.pc with
  | some t => .next (t.setPc (addrWord nnn))
  | none => s.takeFault .stackOverflow (encode (.call nnn)) 16

/-- JP V0, nnn: the register is always V0 (41_flow.md R139). -/
def execJpV0 (nnn : Addr12) (s : State) : Host.Outcome State Fault Refusal :=
  .next (s.advance.setPc (addrWord nnn + byteWord (s.readV 0)))

/-- SE Vx, kk (41_flow.md R140). -/
def execSeImm (x : RegIx) (kk : Byte) (s : State) : Host.Outcome State Fault Refusal :=
  .next (s.advance.skipIf (s.readV x == kk))

/-- SNE Vx, kk (41_flow.md R141). -/
def execSneImm (x : RegIx) (kk : Byte) (s : State) : Host.Outcome State Fault Refusal :=
  .next (s.advance.skipIf (s.readV x != kk))

/-- SE Vx, Vy (41_flow.md R142). -/
def execSeReg (x y : RegIx) (s : State) : Host.Outcome State Fault Refusal :=
  .next (s.advance.skipIf (s.readV x == s.readV y))

/-- SNE Vx, Vy (41_flow.md R143). -/
def execSneReg (x y : RegIx) (s : State) : Host.Outcome State Fault Refusal :=
  .next (s.advance.skipIf (s.readV x != s.readV y))

end Sys2Proof.Machine
end

