-- ==== Sys2Proof/Machine/IndexMemory.lean ====
section
/-! DEFINITION. The meanings of the index register and memory instructions (43_index_memory.md). The bounds
check covers the whole range before anything moves (R174), and `I` is never changed by a move. -/

namespace Sys2Proof.Machine

/-- LD I, nnn (43_index_memory.md R170). -/
def execLdI (nnn : Addr12) (s : State) : Host.Outcome State Fault Refusal :=
  .next (s.advance.setI (addrWord nnn))

/-- ADD I, Vx: modulo 65536, VF not written (43_index_memory.md R171). -/
def execAddI (x : RegIx) (s : State) : Host.Outcome State Fault Refusal :=
  .next (s.advance.setI (s.i + byteWord (s.readV x)))

/-- LD F, Vx: the whole 8-bit value is multiplied (43_index_memory.md R172). -/
def execLdF (x : RegIx) (s : State) : Host.Outcome State Fault Refusal :=
  .next (s.advance.setI (glyphAddr (s.readV x)))

/-- LD B, Vx (43_index_memory.md R173). -/
def execLdB (x : RegIx) (s : State) : Host.Outcome State Fault Refusal :=
  if rangeFits (s.effAddr 0) 3 then
    .next (s.advance.writeBytes (s.effAddr 0) (bcdDigits (s.readV x)))
  else s.takeFault .writeOutOfBounds (encode (.ldB x)) (lowestOutOfRange (s.effAddr 0))

/-- LD [I], Vx: block store of `V[0]` to `V[x]` (43_index_memory.md R174, R175). -/
def execLdMemVx (x : RegIx) (s : State) : Host.Outcome State Fault Refusal :=
  if rangeFits (s.effAddr 0) (blockCount x) then
    .next (s.advance.writeBytes (s.effAddr 0) (s.firstRegs (blockCount x)))
  else s.takeFault .writeOutOfBounds (encode (.ldMemVx x)) (lowestOutOfRange (s.effAddr 0))

/-- LD Vx, [I]: block load of `V[0]` to `V[x]` (43_index_memory.md R174, R176). -/
def execLdVxMem (x : RegIx) (s : State) : Host.Outcome State Fault Refusal :=
  if rangeFits (s.effAddr 0) (blockCount x) then
    .next (s.advance.loadRegs (s.readBytes (s.effAddr 0) (blockCount x)))
  else s.takeFault .readOutOfBounds (encode (.ldVxMem x)) (lowestOutOfRange (s.effAddr 0))

end Sys2Proof.Machine
end

