-- ==== Sys2Proof/Machine/KeysTimers.lean ====
section
/-! DEFINITION. The meanings of the key and timer instructions (45_keys_timers.md). -/

namespace Sys2Proof.Machine

/-- SKP Vx (45_keys_timers.md R200). -/
def execSkp (x : RegIx) (s : State) : Host.Outcome State Fault Refusal :=
  match keyIndex? (s.readV x) with
  | some k => .next (s.advance.skipIf (s.readKey k))
  | none => s.takeFault .keyIndexOutOfRange (encode (.skp x)) (s.readV x).toNat

/-- SKNP Vx (45_keys_timers.md R201). -/
def execSknp (x : RegIx) (s : State) : Host.Outcome State Fault Refusal :=
  match keyIndex? (s.readV x) with
  | some k => .next (s.advance.skipIf (!s.readKey k))
  | none => s.takeFault .keyIndexOutOfRange (encode (.sknp x)) (s.readV x).toNat

/-- LD Vx, DT (45_keys_timers.md R202). -/
def execLdVxDt (x : RegIx) (s : State) : Host.Outcome State Fault Refusal :=
  .next (s.advance.writeV x s.dt)

/-- LD Vx, K: enter the key wait; the register is written later, by the input gate (45_keys_timers.md
R203). -/
def execLdVxK (x : RegIx) (s : State) : Host.Outcome State Fault Refusal :=
  .next (s.advance.setWait (.awaitingKey x))

/-- LD DT, Vx (45_keys_timers.md R204). -/
def execLdDtVx (x : RegIx) (s : State) : Host.Outcome State Fault Refusal :=
  .next (s.advance.setDt (s.readV x))

/-- LD ST, Vx: the tone gate is not touched (45_keys_timers.md R205). -/
def execLdStVx (x : RegIx) (s : State) : Host.Outcome State Fault Refusal :=
  .next (s.advance.setSt (s.readV x))

end Sys2Proof.Machine
end

