-- ==== Sys2Proof/Machine/HostOps.lean ====
section
/-! DEFINITION. What the host can ask of the CORE beside ticks, keys and steps: `load`, the outputs and read
accessors, and the power-on state for any `FONT`, `MEM_INIT` and `STACK` (46_frame_driver_input_gate.md R215,
R227 to R232, 10_state.md R40). The reset event is `State.resetEvent`. -/

namespace Sys2Proof.Machine

/-- The `load(bytes)` event: the length is checked first; a sequence that fits is copied to 0x200 and up,
and nothing else of the CORE is written; a longer one changes nothing. The reply to the host is kept in the
model's own field (R229, R230, D19). It works in every state, a faulted one included (60_exceptions.md
R253). -/
def State.load (s : State) (bytes : List Byte) : State :=
  if bytes.length ≤ Config.maxProgram then
    { s.writeBytes Config.programBase bytes with loadReply := some .ok }
  else { s with loadReply := some .loadOutOfBounds }

/-- The power-on state for given values of the open parameters: the reset values, `MEM[0..79] = FONT`,
`MEM[80..4095] = MEM_INIT`, any `STACK` (10_state.md R40, D14). -/
def State.powerOn (font : Vector Byte 80) (memInit : Vector Byte 4016) (stack : Vector Word 16) : State :=
  { State.reset with
    mem := Memory.writeBytes (Memory.writeBytes [] 0 font.toList) 80 memInit.toList
    stack := stack }

/-- The output ports of the CORE: `tone`, the display read and `fault` (R215, 60_exceptions.md R251). -/
structure Outputs where
  tone : Bool
  display : Grid
  fault : Option FaultRecord
  deriving DecidableEq, Repr

/-- What the output ports show between two events. -/
def State.outputs (s : State) : Outputs := ⟨s.tone, s.fb, s.fault⟩

/-- The read accessor of memory (R232); none for an address outside 0 to 4095. The other accessors are the
fields of `State`, `State.readV`, `State.readKey` and `State.pixel`. -/
def State.memAccessor (s : State) (a : Nat) : Option Byte :=
  if a < Config.memSize then some (s.readByte a) else none

end Sys2Proof.Machine
end

