-- ==== Sys2Proof/Machine/InputGate.lean ====
section
/-! DEFINITION. The input gate: what a key event does (46_frame_driver_input_gate.md R223 to R226). -/

namespace Sys2Proof.Machine

/-- A processed press ends a key wait: `V[x] <- zext_8(code); WAIT <- Running`. Every other processed
transition leaves the gate alone (R224, R225). -/
def State.endWait (s : State) (code : KeyCode) (pressed : Bool) : State :=
  match pressed, s.wait with
  | true, .awaitingKey x => (s.writeV x (BitVec.ofNat 8 code.val)).setWait .running
  | true, .running => s
  | false, _ => s

/-- The key event `(code, pressed)`: nothing while faulted (R226), nothing on a repeat of the recorded
status (R223); otherwise the status is recorded and a press ends a wait. -/
def State.keyEvent (s : State) (code : KeyCode) (pressed : Bool) : State :=
  if s.fault.isSome then s
  else if s.readKey code = pressed then s
  else (s.setKey code pressed).endWait code pressed

end Sys2Proof.Machine
end

