-- ==== Sys2Proof/Machine/FrameDriver.lean ====
section
/-! DEFINITION. The step operation (40_fetch_step.md), the frame driver's tick
(46_frame_driver_input_gate.md R216 to R222), the handling of one host event (R215) and the end of a run (R234). -/

namespace Sys2Proof.Machine

/-- The CORE can execute: no fault is latched and no key is awaited (40_fetch_step.md R125). -/
def State.canExecute (s : State) : Bool := s.fault.isNone && s.wait == .running

/-- The two bytes at `PC` as a word, high byte first; none when `PC > 4094` (40_fetch_step.md R121). -/
def State.fetch? (s : State) : Option Word :=
  if s.pc.toNat ≤ 4094 then some (joinBytes (s.readByte s.pc.toNat) (s.readByte (s.pc.toNat + 1))) else none

/-- One step: nothing when gated, else fetch, advance and execute (40_fetch_step.md R120 to R127). The
advance is made by the meanings; a fetch fault records the word 0. That a step asked for by the host is gated
too is DEDUCED, safe: notes/assumptions/12.md. -/
def State.instrStep (s : State) : Host.Outcome State Fault Refusal :=
  if s.canExecute then
    match s.fetch? with
    | some w => exec (decodeWord w) s
    | none => s.takeFault .fetchOutOfBounds 0 s.pc.toNat
  else .next s

/-- `speed` steps, leaving the loop when a key wait or a fault arises
(46_frame_driver_input_gate.md R220). -/
def runSteps : Nat → State → Host.Outcome State Fault Refusal
  | 0, s => .next s
  | n + 1, s =>
    match s.instrStep with
    | .next t => if t.canExecute then runSteps n t else .next t
    | .fault r => .fault r
    | .refused r => .refused r

/-- `if DT > 0 then DT <- DT - 1` (46_frame_driver_input_gate.md R218). -/
def State.tickDelay (s : State) : State := if s.dt = 0 then s else s.setDt (s.dt - 1)

/-- `if ST > 0 then (ST <- ST - 1; TONE <- 1) else TONE <- 0` (46_frame_driver_input_gate.md R219). -/
def State.tickSound (s : State) : State :=
  if s.st = 0 then s.setTone false else (s.setSt (s.st - 1)).setTone true

/-- The tick event (46_frame_driver_input_gate.md R221). A tick with `speed = 0` is outside the interface
and has no move (R217). -/
def State.tick (s : State) (speed : Nat) : Host.Outcome State Fault Refusal :=
  if speed = 0 then .fault .zeroSpeedTick
  else if s.fault.isSome then .next s
  else if s.wait = .running then runSteps speed s.tickDelay.tickSound
  else .next (s.setTone false)

/-- One event of the host, from beginning to end (46_frame_driver_input_gate.md R215). -/
def State.handle (s : State) : Event → Host.Outcome State Fault Refusal
  | .tick speed => s.tick speed
  | .key code pressed => .next (s.keyEvent code pressed)
  | .reset => .next s.resetEvent
  | .load bytes => .next (s.load bytes)
  | .step => s.instrStep

/-- `PC` is at a jump to itself, the convention by which a program ends (46_frame_driver_input_gate.md R234,
41_flow.md R137). -/
def State.atSelfJump (s : State) : Bool :=
  match s.fetch? with
  | some w => decodeWord w == .jp (s.pc.setWidth 12)
  | none => false

/-- The end of a run, which the spec leaves to the model: the CORE can execute and is at a jump to itself. A
faulted state or a key wait is no end. The CORE itself never stops (R234, D21). DESIGN CHOICE, unsafe:
notes/assumptions/18.md. -/
def State.ended (s : State) : Bool := s.canExecute && s.atSelfJump

/-- The next event of the schedule, taken off it and handled; with nothing scheduled, the host asks for one
step (notes/assumptions/5.md). -/
def State.nextEvent (s : State) : Host.Outcome State Fault Refusal :=
  match s.events with
  | [] => s.instrStep
  | e :: rest => { s with events := rest }.handle e

end Sys2Proof.Machine
end

