-- ==== Sys2Proof/Machine/Step.lean ====
section
/-! DEFINITION. The step of the machine, and a state in which the next step runs a given word. -/

namespace Sys2Proof.Machine

/-- One step of the machine: the next event of the host's schedule, or one instruction when nothing is
scheduled (46_frame_driver_input_gate.md R215, R233; notes/assumptions/5.md). -/
def step (s : State) : Host.Outcome State Fault Refusal := s.nextEvent

/-- `s` with an opcode-table word stored where the next step fetches, and with what lets that step fetch:
nothing scheduled, no key awaited, no fault latched, and `PC` at 0x200 if it is where no fetch can be made.
It stands for the host's `load` (notes/assumptions/7.md). -/
def State.withFetchWord (s : State) (nbits w : Nat) : State :=
  let pc : Word := if s.pc.toNat ≤ 4094 then s.pc else 0x200
  { s with
    mem := Memory.writeBytes s.mem pc.toNat (wordBytes (tableWord nbits w))
    pc := pc
    wait := .running
    fault := none
    events := [] }

end Sys2Proof.Machine
end

