-- ==== Sys2Proof/Safety.lean ====
section
/-! DEFINITION. The terms claims are stated in: what counts as a safe state, the invariant of the machine, the
frame predicates, and the readings of the spec's prose that several statements share. -/

namespace Sys2Proof.Machine

/-! ### Safe states and the invariant -/

/-- Nothing has gone wrong: `FAULT = None`. A faulted state is never a good end (60_exceptions.md R253). -/
abbrev State.Safe (s : State) : Prop := s.fault = none

/-- A fault record says what the table of 60_exceptions.md R246 gives for its cause, read against the state
it was latched in. -/
def FaultRecord.explains (r : FaultRecord) (s : State) : Bool :=
  match r.cause with
  | .fetchOutOfBounds => 4094 < s.pc.toNat && r.instr == 0 && r.info.toNat == s.pc.toNat
  | .readOutOfBounds =>
    r.info.toNat == max s.i.toNat 4096 &&
      match decodeWord r.instr with
      | .drw _ _ n => 1 ≤ n.val && 4095 < s.i.toNat + n.val - 1
      | .ldVxMem x => 4095 < s.i.toNat + x.val
      | _ => false
  | .writeOutOfBounds =>
    r.info.toNat == max s.i.toNat 4096 &&
      match decodeWord r.instr with
      | .ldB _ => 4095 < s.i.toNat + 2
      | .ldMemVx x => 4095 < s.i.toNat + x.val
      | _ => false
  | .stackOverflow =>
    s.sp.val == 16 && r.info.toNat == 16 && match decodeWord r.instr with | .call _ => true | _ => false
  | .stackUnderflow => s.sp.val == 0 && r.info.toNat == 0 && r.instr == 0x00EE
  | .keyIndexOutOfRange =>
    match decodeWord r.instr with
    | .skp x => 15 < (s.readV x).toNat && r.info.toNat == (s.readV x).toNat
    | .sknp x => 15 < (s.readV x).toNat && r.info.toNat == (s.readV x).toNat
    | _ => false

/-- The fault latch agrees with the rest of the state: a fault arises only in a running machine, `PC` is at
the faulting instruction, and the record holds its cause's row of R246 (60_exceptions.md R252). -/
def State.latchOk (s : State) : Bool :=
  match s.fault with
  | none => true
  | some r => s.wait == .running && r.pc == s.pc && r.explains s

/-- Every entry in use holds an address CALL can push, at most 4096 (41_flow.md R136, R138). -/
def State.stackOk (s : State) : Bool := decide (∀ j : Fin 16, j.val < s.sp.val → (s.stack[j]).toNat ≤ 4096)

/-- `PC` is at most 0x10FE, so no reduction modulo 65536 takes effect (10_state.md R26). -/
def State.pcOk (s : State) : Bool := decide (s.pc.toNat ≤ 0x10FE)

/-- The invariant of the machine. -/
structure State.Inv (s : State) : Prop where
  memory : Memory.wf s.mem = true
  latch : s.latchOk = true
  stack : s.stackOk = true
  pc : s.pcOk = true

/-! ### Frames -/

/-- Every byte of memory reads as before. -/
def ReadsAsBefore (s t : State) : Prop := ∀ a, t.readByte a = s.readByte a

/-- Every byte outside the `count` bytes from `base` up reads as before. -/
def ReadsAsBeforeOutside (base count : Nat) (s t : State) : Prop :=
  ∀ a, a < base ∨ base + count ≤ a → t.readByte a = s.readByte a

/-- `t` is `s` after one instruction that falls through and writes no register but those of `D`: `PC` is at
the next instruction, every other register, every byte of memory and every other component is as before. -/
def RegFrame (D : RegIx → Prop) (s t : State) : Prop :=
  (∀ j, ¬ D j → t.readV j = s.readV j) ∧ ReadsAsBefore s t ∧ t.pc = s.pc + 2 ∧
    t = { s with v := t.v, pc := t.pc }

/-- `t` is `s` with `PC` written and nothing else. -/
def PcFrame (s t : State) : Prop := ReadsAsBefore s t ∧ t = { s with pc := t.pc }

/-! ### Readings of the spec -/

/-- A bit 1 of the sprite of `n` rows at `I`, drawn at `(xs, ys)`, lands on column `px`, row `py`
(44_display.md R187). -/
def SpriteCovers (s : State) (xs ys : Byte) (n : Nat) (px : Fin 64) (py : Fin 32) : Prop :=
  ∃ r < n, ∃ c < 8, px.val = (xs.toNat + c) % 64 ∧ py.val = (ys.toNat + r) % 32 ∧
    (s.readByte (s.i.toNat + r)).getLsbD (7 - c) = true

/-- The same for a list of rows. -/
def RowsCover (rows : List Byte) (xs ys : Byte) (px : Fin 64) (py : Fin 32) : Prop :=
  ∃ r row, rows[r]? = some row ∧ ∃ c < 8, px.val = (xs.toNat + c) % 64 ∧ py.val = (ys.toNat + r) % 32 ∧
    row.getLsbD (7 - c) = true

/-- `n` steps one after the other, each gated as every step is (40_fetch_step.md R125), with no loop to
leave. -/
def stepsInARow : Nat → State → Host.Outcome State Fault Refusal
  | 0, s => .next s
  | n + 1, s =>
    match s.instrStep with
    | .next t => stepsInARow n t
    | .fault r => .fault r
    | .refused r => .refused r

/-- The condition under which an instruction faults, row by row of 60_exceptions.md R246. -/
def FaultCondition (i : Instr) (s : State) : Prop :=
  match i with
  | .drw _ _ n => 1 ≤ n.val ∧ 4095 < s.i.toNat + n.val - 1
  | .ldVxMem x | .ldMemVx x => 4095 < s.i.toNat + x.val
  | .ldB _ => 4095 < s.i.toNat + 2
  | .call _ => s.sp.val = 16
  | .ret => s.sp.val = 0
  | .skp x | .sknp x => 15 < (s.readV x).toNat
  | .cls | .sys _ | .jp _ | .seImm _ _ | .sneImm _ _ | .seReg _ _ _ | .ldImm _ _ | .addImm _ _ | .ldReg _ _
  | .or _ _ | .and _ _ | .xor _ _ | .addReg _ _ | .sub _ _ | .shr _ _ | .subn _ _ | .shl _ _ | .nop8 _ _ _
  | .sneReg _ _ _ | .ldI _ | .jpV0 _ | .rnd _ _ | .nopE _ _ | .ldVxDt _ | .ldVxK _ | .ldDtVx _ | .ldStVx _
  | .addI _ | .ldF _ | .nopF _ _ => False

/-- The registers an instruction may write: its destination, VF for the six that set it, `V[0]` to `V[x]`
for the block load (10_state.md R23, R24). -/
def MayWriteReg (i : Instr) (j : RegIx) : Prop :=
  match i with
  | .ldImm x _ | .addImm x _ | .ldReg x _ | .or x _ | .and x _ | .xor x _ | .rnd x _ | .ldVxDt x => j = x
  | .addReg x _ | .sub x _ | .shr x _ | .subn x _ | .shl x _ => j = x ∨ j = 0xF
  | .drw _ _ _ => j = 0xF
  | .ldVxMem x => j.val ≤ x.val
  | .cls | .ret | .sys _ | .jp _ | .call _ | .seImm _ _ | .sneImm _ _ | .seReg _ _ _ | .nop8 _ _ _
  | .sneReg _ _ _ | .ldI _ | .jpV0 _ | .skp _ | .sknp _ | .nopE _ _ | .ldVxK _ | .ldDtVx _ | .ldStVx _
  | .addI _ | .ldF _ | .ldB _ | .ldMemVx _ | .nopF _ _ => False

end Sys2Proof.Machine
end

