-- ==== Sys2Proof/Certificates/Slice0/Obligations.lean ====
section
/-! DEFINITION. The statements for the provers. Each docstring says what of the spec the statement formalises;
one that rests on a decision or an inference the spec marks as its own (D1 to D32 of 92_eei_decisions.md,
[derived: ...]) or on a choice of the model names it and has basis 'derived'. -/

open Sys2Proof Sys2Proof.Machine

/-! ### Encoding -/

/-- Decoding and encoding are inverse over all instructions and all words: the decoder reads back the bytes
of every well-formed instruction, and every two bytes are the bytes of the well-formed instruction the
decoder reads from them, the bytes that follow being left (30_encoding.md R90, R91, R101). -/
def Obligations.DecodeAndEncodeAreInverse : Prop :=
  (∀ i : Instr, i.wellFormed = true → decode (encodeBytes i) = .ok (i, [])) ∧
  (∀ (hi lo : Byte) (rest : List Byte), ∃ i : Instr,
    decode (hi :: lo :: rest) = .ok (i, rest) ∧ i.wellFormed = true ∧ encodeBytes i = [hi, lo])

/-- The two-level dispatch and the opcode table agree: every word decodes to an instruction of the first
row, in file order, whose mask and match it meets (30_encoding.md R94 to R100, R106, R107). -/
def Obligations.DecoderTakesTheFirstMatchingRow : Prop :=
  ∀ w : Word, (firstRow w).map OpcodeRow.mnemonic = some (decodeWord w).mnemonic

/-- Words written out from the spec's encodings, one or more of each of the 16 families of the high nibble,
decode to the instructions they stand for (95_test_vectors.md section 2.1, 30_encoding.md R94, R106). That 0x5127
and 0x912F are skips, the low nibble ignored, is the spec's decision D10 (notes/assumptions/10.md). -/
def Obligations.WordsOfEveryFamilyDecode : Prop :=
  decodeWord 0b0000000011100000 = .cls ∧ decodeWord 0b0000000011101110 = .ret ∧
  decodeWord 0b0000000111100000 = .sys 0x1E0 ∧ decodeWord 0b0001101010111100 = .jp 0xABC ∧
  decodeWord 0b0010000100100011 = .call 0x123 ∧ decodeWord 0b0011101001111111 = .seImm 0xA 0x7F ∧
  decodeWord 0b0100000110000000 = .sneImm 1 0x80 ∧ decodeWord 0b0101000100100111 = .seReg 1 2 7 ∧
  decodeWord 0b0110101000101100 = .ldImm 0xA 0x2C ∧ decodeWord 0b0111000111111111 = .addImm 1 0xFF ∧
  decodeWord 0b1001000100101111 = .sneReg 1 2 0xF ∧ decodeWord 0b1011111000000001 = .jpV0 0xE01 ∧
  decodeWord 0b1100001100001111 = .rnd 3 0x0F ∧ decodeWord 0b1000101010110100 = .addReg 0xA 0xB ∧
  decodeWord 0b1000000000011110 = .shl 0 1 ∧ decodeWord 0b1000101010111111 = .nop8 0xA 0xB 0xF ∧
  decodeWord 0b1010001000010010 = .ldI 0x212 ∧ decodeWord 0b1101000100101111 = .drw 1 2 15 ∧
  decodeWord 0b1110000110011110 = .skp 1 ∧ decodeWord 0b1110000110100001 = .sknp 1 ∧
  decodeWord 0b1110000110100000 = .nopE 1 0xA0 ∧ decodeWord 0b1111000100001010 = .ldVxK 1 ∧
  decodeWord 0b1111000100110011 = .ldB 1 ∧ decodeWord 0b1111000101110101 = .nopF 1 0x75

/-! ### The step -/

/-- When the two bytes at `PC` decode to an instruction, the machine can execute, and the host asks for a
step (nothing scheduled, or a step event first), the step is `exec` of that instruction in that state; the
fetch takes the byte at `PC` as the high byte (20_memory.md R66, 40_fetch_step.md R120, R121, R123, R127). -/
def Obligations.StepRunsTheDecodedInstruction : Prop :=
  ∀ (s : State) (i : Instr), s.fault = none → s.wait = .running → s.pc.toNat ≤ 4094 →
    decode [s.readByte s.pc.toNat, s.readByte (s.pc.toNat + 1)] = .ok (i, []) →
    (s.events = [] → step s = exec i s) ∧
    (∀ rest, s.events = .step :: rest → step s = exec i { s with events := rest })

/-- The bytes of a well-formed instruction, stored at `PC` and the next address, are what the step runs
(20_memory.md R66, 30_encoding.md R90, R101). -/
def Obligations.StepRunsAStoredInstruction : Prop :=
  ∀ (s : State) (i : Instr), s.fault = none → s.wait = .running → s.events = [] → s.pc.toNat ≤ 4094 →
    i.wellFormed = true → [s.readByte s.pc.toNat, s.readByte (s.pc.toNat + 1)] = encodeBytes i →
    step s = exec i s

/-- A fetch with `PC > 4094` latches `FetchOutOfBounds` with the word 0 and the value of `PC`, and changes
nothing else (40_fetch_step.md R121, 60_exceptions.md R246, R247; the spec's decisions D1, D3, D4). -/
def Obligations.FetchOutsideMemoryFaults : Prop :=
  ∀ s : State, s.fault = none → s.wait = .running → s.events = [] → 4094 < s.pc.toNat →
    step s = .next { s with fault := some ⟨.fetchOutOfBounds, s.pc, 0, s.pc.setWidth 17⟩ }

/-- A step asked for while a key is awaited or a fault is latched changes nothing (40_fetch_step.md R125,
46_frame_driver_input_gate.md R233; the spec's decision D12). -/
def Obligations.GatedStepChangesNothing : Prop :=
  ∀ s : State, s.fault ≠ none ∨ s.wait ≠ .running →
    (s.events = [] → step s = .next s) ∧
    (∀ rest, s.events = .step :: rest → step s = .next { s with events := rest })

/-- A step never moves the timers on its own, never changes `TONE` and never writes `KEY`: after any step
of an instruction `TONE` and `KEY` are as before, and `DT` or `ST` differs only when the instruction was LD
DT,Vx or LD ST,Vx, and then holds the register it names (40_fetch_step.md R126). -/
def Obligations.StepsLeaveTimersToneAndKeys : Prop :=
  ∀ s t : State, s.instrStep = .next t →
    t.tone = s.tone ∧ t.key = s.key ∧
    (t.dt = s.dt ∨ ∃ w x, s.fetch? = some w ∧ decodeWord w = .ldDtVx x ∧ t.dt = s.readV x) ∧
    (t.st = s.st ∨ ∃ w x, s.fetch? = some w ∧ decodeWord w = .ldStVx x ∧ t.st = s.readV x)

/-! ### Control transfer -/

/-- The no-op rows SYS, NOP_8, NOP_E and NOP_F complete in every state and change `PC` only, to the next
instruction (30_encoding.md R100, 41_flow.md R135). -/
def Obligations.NoOpsOnlyAdvance : Prop :=
  ∀ (s : State) (i : Instr),
    (∃ nnn, i = .sys nnn) ∨ (∃ x y n, i = .nop8 x y n) ∨ (∃ x kk, i = .nopE x kk) ∨ (∃ x kk, i = .nopF x kk) →
    ∃ t, exec i s = .next t ∧ t.pc = s.pc + 2 ∧ PcFrame s t

/-- Exactly the words 30_encoding.md R100 lists decode to a no-op row: family 0 but for two words, seven
nibbles of family 8, and every low byte of families E and F but for two and for nine. -/
def Obligations.NoOpWordsAreThoseListed : Prop :=
  ∀ w : Word,
    ((∃ nnn, decodeWord w = .sys nnn) ∨ (∃ x y n, decodeWord w = .nop8 x y n) ∨
      (∃ x kk, decodeWord w = .nopE x kk) ∨ (∃ x kk, decodeWord w = .nopF x kk)) ↔
    ((w.toNat / 4096 = 0 ∧ w.toNat ≠ 0x00E0 ∧ w.toNat ≠ 0x00EE) ∨
     (w.toNat / 4096 = 8 ∧ w.toNat % 16 ∈ [0x8, 0x9, 0xA, 0xB, 0xC, 0xD, 0xF]) ∨
     (w.toNat / 4096 = 0xE ∧ w.toNat % 256 ∉ [0x9E, 0xA1]) ∨
     (w.toNat / 4096 = 0xF ∧ w.toNat % 256 ∉ [0x07, 0x0A, 0x15, 0x18, 0x1E, 0x29, 0x33, 0x55, 0x65]))

/-- The words of high nibble 1 are JP and those of 0xB are JP V0. JP completes in every state with `PC` equal
to `nnn`, and JP V0 with `PC` equal to the sum of `nnn` and V0, not reduced to 12 bits; nothing else changes
(41_flow.md R137, R139). -/
def Obligations.JumpsWritePc : Prop :=
  ∀ (s : State) (nnn : Addr12),
    (∃ t, exec (.jp nnn) s = .next t ∧ t.pc.toNat = nnn.toNat ∧ PcFrame s t) ∧
    (∃ t, exec (.jpV0 nnn) s = .next t ∧ t.pc.toNat = nnn.toNat + (s.readV 0).toNat ∧ PcFrame s t) ∧
    (∀ w, opField w = 0x1 → decodeWord w = .jp (nnnField w)) ∧
    (∀ w, opField w = 0xB → decodeWord w = .jpV0 (nnnField w))

/-- The words of high nibble 3 are SE Vx,kk and those of 4 are SNE Vx,kk. Each completes in every state: `PC`
moves on by 4 when its condition holds and by 2 when not, and nothing else changes (41_flow.md R140, R141). -/
def Obligations.ImmediateSkips : Prop :=
  ∀ (s : State) (x : RegIx) (kk : Byte),
    (∃ t, exec (.seImm x kk) s = .next t ∧
      t.pc = s.pc + (if (s.readV x).toNat = kk.toNat then 4 else 2) ∧ PcFrame s t) ∧
    (∃ t, exec (.sneImm x kk) s = .next t ∧
      t.pc = s.pc + (if (s.readV x).toNat = kk.toNat then 2 else 4) ∧ PcFrame s t) ∧
    (∀ w, opField w = 0x3 → decodeWord w = .seImm (xField w) (kkField w)) ∧
    (∀ w, opField w = 0x4 → decodeWord w = .sneImm (xField w) (kkField w))

/-- SE Vx,Vy and SNE Vx,Vy complete in every state, for every low nibble: `PC` moves on by 4 when the condition
on the two registers holds and by 2 when not, and nothing else changes (41_flow.md R142, R143; that the low
nibble is ignored is the spec's decision D10). -/
def Obligations.RegisterSkips : Prop :=
  ∀ (s : State) (x y : RegIx) (n : Nibble),
    (∃ t, exec (.seReg x y n) s = .next t ∧
      t.pc = s.pc + (if (s.readV x).toNat = (s.readV y).toNat then 4 else 2) ∧ PcFrame s t) ∧
    (∃ t, exec (.sneReg x y n) s = .next t ∧
      t.pc = s.pc + (if (s.readV x).toNat = (s.readV y).toNat then 2 else 4) ∧ PcFrame s t)

/-- CALL with a free entry completes: the address of the instruction after it goes to `STACK[SP]`, `SP`
counts it, `PC` is `nnn`, and nothing else changes (41_flow.md R138, 10_state.md R29, D8). -/
def Obligations.CallPushesAndJumps : Prop :=
  ∀ (s : State) (nnn : Addr12), s.sp.val < 16 →
    ∃ t, exec (.call nnn) s = .next t ∧ t.pc.toNat = nnn.toNat ∧ t.sp.val = s.sp.val + 1 ∧
      (∀ j : Fin 16, t.stack[j] = if j.val = s.sp.val then s.pc + 2 else s.stack[j]) ∧
      ReadsAsBefore s t ∧ t = { s with pc := t.pc, sp := t.sp, stack := t.stack }

/-- RET with an entry in use completes: `SP` counts one less, `PC` is the entry it then points at, the entry
stays, and nothing else changes (41_flow.md R136, 10_state.md R29, D8). -/
def Obligations.RetPops : Prop :=
  ∀ (s : State) (j : Fin 16), s.sp.val = j.val + 1 →
    ∃ t, exec .ret s = .next t ∧ t.sp.val = j.val ∧ t.pc = s.stack[j] ∧
      ReadsAsBefore s t ∧ t = { s with pc := t.pc, sp := t.sp }

/-- A RET after a CALL returns to the instruction after the CALL, and leaves every component as before the
CALL but `PC` and the one stale stack entry (95_test_vectors.md S10). -/
def Obligations.CallThenRetReturns : Prop :=
  ∀ (s : State) (nnn : Addr12), s.sp.val < 16 →
    ∃ t u, exec (.call nnn) s = .next t ∧ exec .ret t = .next u ∧ u.pc = s.pc + 2 ∧ u.sp = s.sp ∧
      (∀ j : Fin 16, j.val ≠ s.sp.val → u.stack[j] = s.stack[j]) ∧
      u = { s with pc := u.pc, stack := u.stack }

/-- CALL on a full stack and RET on an empty one latch their fault, with the word, the address and 16 or 0,
and change nothing else (60_exceptions.md R246, R249, R252; the spec's decisions D2, D3, D4). -/
def Obligations.StackFaultsLatch : Prop :=
  ∀ (s : State) (nnn : Addr12),
    (s.sp.val = 16 → exec (.call nnn) s =
      .next { s with fault := some ⟨.stackOverflow, s.pc, encode (.call nnn), 16⟩ }) ∧
    (s.sp.val = 0 → exec .ret s = .next { s with fault := some ⟨.stackUnderflow, s.pc, 0x00EE, 0⟩ })

/-! ### Loads, arithmetic, logic, shifts, random -/

/-- The words of high nibble 6 are LD Vx,kk, those of 7 ADD Vx,kk, those of 8 with low nibble 0 LD Vx,Vy. LD
Vx,kk leaves `kk` in `V[x]`, ADD Vx,kk the sum modulo 256, LD Vx,Vy the value of `V[y]`; each completes in every
state and writes no other register, VF included (42_alu.md R150, R151, R152). -/
def Obligations.LoadsAndAddImmediate : Prop :=
  ∀ (s : State) (x y : RegIx) (kk : Byte),
    (∃ t, exec (.ldImm x kk) s = .next t ∧ t.readV x = kk ∧ RegFrame (· = x) s t) ∧
    (∃ t, exec (.addImm x kk) s = .next t ∧
      (t.readV x).toNat = ((s.readV x).toNat + kk.toNat) % 256 ∧ RegFrame (· = x) s t) ∧
    (∃ t, exec (.ldReg x y) s = .next t ∧ t.readV x = s.readV y ∧ RegFrame (· = x) s t) ∧
    (∀ w, opField w = 0x6 → decodeWord w = .ldImm (xField w) (kkField w)) ∧
    (∀ w, opField w = 0x7 → decodeWord w = .addImm (xField w) (kkField w)) ∧
    (∀ w, opField w = 0x8 → nField w = 0x0 → decodeWord w = .ldReg (xField w) (yField w))

/-- OR, AND and XOR complete in every state, with each bit of `V[x]` computed from the bits of `V[x]` and
`V[y]`; no other register is written. That VF is not written is the spec's inference from the silence of
its source (42_alu.md R153 to R155, D31). -/
def Obligations.LogicBitByBit : Prop :=
  ∀ (s : State) (x y : RegIx),
    (∃ t, exec (.or x y) s = .next t ∧ RegFrame (· = x) s t ∧
      ∀ b < 8, (t.readV x).getLsbD b = ((s.readV x).getLsbD b || (s.readV y).getLsbD b)) ∧
    (∃ t, exec (.and x y) s = .next t ∧ RegFrame (· = x) s t ∧
      ∀ b < 8, (t.readV x).getLsbD b = ((s.readV x).getLsbD b && (s.readV y).getLsbD b)) ∧
    (∃ t, exec (.xor x y) s = .next t ∧ RegFrame (· = x) s t ∧
      ∀ b < 8, (t.readV x).getLsbD b = ((s.readV x).getLsbD b ^^ (s.readV y).getLsbD b))

/-- ADD Vx,Vy, SUB and SUBN complete in every state, with `V[x]` the sum or difference modulo 256 of the
operands as they were, and VF, when it is not the destination, 1 exactly on a carry, or on no borrow. With
`x = 0xF` the result stands in VF: the spec's decision D9 (42_alu.md R156, R157, R159, R161, R162). -/
def Obligations.AddAndSubtractWithFlag : Prop :=
  ∀ (s : State) (x y : RegIx),
    (∃ t, exec (.addReg x y) s = .next t ∧ RegFrame (fun j => j = x ∨ j = 0xF) s t ∧
      (t.readV x).toNat = ((s.readV x).toNat + (s.readV y).toNat) % 256 ∧
      (x ≠ 0xF → (t.readV 0xF).toNat = if 255 < (s.readV x).toNat + (s.readV y).toNat then 1 else 0)) ∧
    (∃ t, exec (.sub x y) s = .next t ∧ RegFrame (fun j => j = x ∨ j = 0xF) s t ∧
      ((t.readV x).toNat : Int) = ((s.readV x).toNat - (s.readV y).toNat : Int) % 256 ∧
      (x ≠ 0xF → (t.readV 0xF).toNat = if (s.readV y).toNat ≤ (s.readV x).toNat then 1 else 0)) ∧
    (∃ t, exec (.subn x y) s = .next t ∧ RegFrame (fun j => j = x ∨ j = 0xF) s t ∧
      ((t.readV x).toNat : Int) = ((s.readV y).toNat - (s.readV x).toNat : Int) % 256 ∧
      (x ≠ 0xF → (t.readV 0xF).toNat = if (s.readV x).toNat ≤ (s.readV y).toNat then 1 else 0))

/-- SHR and SHL complete in every state, shift `V[x]` in place whatever `y` is, and leave the bit shifted
out in VF when VF is not the destination. With `x = 0xF` the result stands in VF: the spec's decision D9
(42_alu.md R158, R160, R161). -/
def Obligations.ShiftsInPlaceWithFlag : Prop :=
  ∀ (s : State) (x y : RegIx),
    (∃ t, exec (.shr x y) s = .next t ∧ RegFrame (fun j => j = x ∨ j = 0xF) s t ∧
      (t.readV x).toNat = (s.readV x).toNat / 2 ∧
      (x ≠ 0xF → (t.readV 0xF).toNat = (s.readV x).toNat % 2)) ∧
    (∃ t, exec (.shl x y) s = .next t ∧ RegFrame (fun j => j = x ∨ j = 0xF) s t ∧
      (t.readV x).toNat = (s.readV x).toNat * 2 % 256 ∧
      (x ≠ 0xF → (t.readV 0xF).toNat = (s.readV x).toNat / 128))

/-- RND completes in every state, with `V[x]` the next byte of the random source masked by `kk`, and the
draw counted; no bit outside `kk` is ever set. The random source is a free value of the model
(notes/assumptions/4.md), and `draws` its counter (42_alu.md R163; the spec's decision D11). -/
def Obligations.RandomByteIsMasked : Prop :=
  ∀ (s : State) (x : RegIx) (kk : Byte),
    ∃ t, exec (.rnd x kk) s = .next t ∧ t.readV x = Config.randomByte s.draws &&& kk ∧
      (∀ b < 8, kk.getLsbD b = false → (t.readV x).getLsbD b = false) ∧
      (∀ j, j ≠ x → t.readV j = s.readV j) ∧ ReadsAsBefore s t ∧ t.pc = s.pc + 2 ∧ t.draws = s.draws + 1 ∧
      t = { s with v := t.v, pc := t.pc, draws := t.draws }

/-! ### Index register and memory -/

/-- The words of high nibble 0xA are LD I,nnn, those of 0xF with low byte 0x29 LD F,Vx. LD I,nnn leaves `nnn`
in `I` and LD F,Vx five times the whole value of `V[x]`; each completes in every state, and changes `I` and `PC`
only (43_index_memory.md R170, R172). -/
def Obligations.IndexRegisterLoads : Prop :=
  ∀ (s : State) (nnn : Addr12) (x : RegIx),
    (∃ t, exec (.ldI nnn) s = .next t ∧ t.i.toNat = nnn.toNat ∧ t.pc = s.pc + 2 ∧ ReadsAsBefore s t ∧
      t = { s with i := t.i, pc := t.pc }) ∧
    (∃ t, exec (.ldF x) s = .next t ∧ t.i.toNat = (s.readV x).toNat * 5 ∧ t.pc = s.pc + 2 ∧
      ReadsAsBefore s t ∧ t = { s with i := t.i, pc := t.pc }) ∧
    (∀ w, opField w = 0xA → decodeWord w = .ldI (nnnField w)) ∧
    (∀ w, opField w = 0xF → kkField w = 0x29 → decodeWord w = .ldF (xField w))

/-- ADD I,Vx completes in every state with the sum modulo 65536 in `I`; no register is written. That VF is
not written is the spec's inference from the silence of its source (43_index_memory.md R171, D31), the width
of 16 bits its decision D6. -/
def Obligations.IndexRegisterAdd : Prop :=
  ∀ (s : State) (x : RegIx),
    ∃ t, exec (.addI x) s = .next t ∧ t.i.toNat = (s.i.toNat + (s.readV x).toNat) % 65536 ∧
      t.pc = s.pc + 2 ∧ (∀ j, t.readV j = s.readV j) ∧ ReadsAsBefore s t ∧
      t = { s with i := t.i, pc := t.pc }

/-- LD B,Vx with its three addresses inside memory completes: the hundreds, tens and ones of `V[x]` at `I`,
`I + 1`, `I + 2`, every other byte as before, and no register changed (43_index_memory.md R173; the range
condition is the spec's decision D1). -/
def Obligations.DecimalDigitsStored : Prop :=
  ∀ (s : State) (x : RegIx), Memory.wf s.mem = true → s.i.toNat + 2 ≤ 4095 →
    ∃ t, exec (.ldB x) s = .next t ∧
      (t.readByte s.i.toNat).toNat = (s.readV x).toNat / 100 ∧
      (t.readByte (s.i.toNat + 1)).toNat = (s.readV x).toNat / 10 % 10 ∧
      (t.readByte (s.i.toNat + 2)).toNat = (s.readV x).toNat % 10 ∧
      ReadsAsBeforeOutside s.i.toNat 3 s t ∧ t.pc = s.pc + 2 ∧ t = { s with mem := t.mem, pc := t.pc }

/-- LD [I],Vx with its addresses inside memory completes: `V[k]` at `I + k` for k from 0 to x, every other
byte as before, and no register changed, `I` included (43_index_memory.md R174, R175; D1, D31). -/
def Obligations.BlockStore : Prop :=
  ∀ (s : State) (x : RegIx), Memory.wf s.mem = true → s.i.toNat + x.val ≤ 4095 →
    ∃ t, exec (.ldMemVx x) s = .next t ∧
      (∀ k : RegIx, k.val ≤ x.val → t.readByte (s.i.toNat + k.val) = s.readV k) ∧
      ReadsAsBeforeOutside s.i.toNat (x.val + 1) s t ∧ t.pc = s.pc + 2 ∧
      t = { s with mem := t.mem, pc := t.pc }

/-- LD Vx,[I] with its addresses inside memory completes: `V[k]` holds the byte at `I + k` for k from 0 to x,
the registers above x are as before, and memory and `I` are unchanged (43_index_memory.md R174, R176; D1,
D31). -/
def Obligations.BlockLoad : Prop :=
  ∀ (s : State) (x : RegIx), s.i.toNat + x.val ≤ 4095 →
    ∃ t, exec (.ldVxMem x) s = .next t ∧
      (∀ k : RegIx, k.val ≤ x.val → t.readV k = s.readByte (s.i.toNat + k.val)) ∧
      RegFrame (fun k => k.val ≤ x.val) s t

/-- A block load right after a block store of the same registers restores every register and changes no
byte (43_index_memory.md R174 to R176; D1). -/
def Obligations.BlockStoreThenLoad : Prop :=
  ∀ (s : State) (x : RegIx), Memory.wf s.mem = true → s.i.toNat + x.val ≤ 4095 →
    ∃ t u, exec (.ldMemVx x) s = .next t ∧ exec (.ldVxMem x) t = .next u ∧
      (∀ k, u.readV k = s.readV k) ∧ ReadsAsBefore t u

/-- The four instructions whose range passes 4095 latch their fault, with the lowest address out of range,
and change nothing else: no byte, no register, no pixel (20_memory.md R70 to R72, 60_exceptions.md R246,
R248, R252; the spec's decisions D1, D3, D4, D28). -/
def Obligations.RangeFaultsLatch : Prop :=
  ∀ (s : State) (x y : RegIx) (n : Nibble),
    (4095 < s.i.toNat + 2 → exec (.ldB x) s = .next { s with
      fault := some ⟨.writeOutOfBounds, s.pc, encode (.ldB x), BitVec.ofNat 17 (max s.i.toNat 4096)⟩ }) ∧
    (4095 < s.i.toNat + x.val → exec (.ldMemVx x) s = .next { s with
      fault := some ⟨.writeOutOfBounds, s.pc, encode (.ldMemVx x), BitVec.ofNat 17 (max s.i.toNat 4096)⟩ }) ∧
    (4095 < s.i.toNat + x.val → exec (.ldVxMem x) s = .next { s with
      fault := some ⟨.readOutOfBounds, s.pc, encode (.ldVxMem x), BitVec.ofNat 17 (max s.i.toNat 4096)⟩ }) ∧
    (1 ≤ n.val → 4095 < s.i.toNat + n.val - 1 → exec (.drw x y n) s = .next { s with
      fault := some ⟨.readOutOfBounds, s.pc, encode (.drw x y n), BitVec.ofNat 17 (max s.i.toNat 4096)⟩ })

/-- Self-modifying code needs nothing: a block store to the address of the next instruction is what the
next step fetches (20_memory.md R77, 70_reset_and_hazards.md R296, both marked derived). -/
def Obligations.StoreIsSeenByTheNextFetch : Prop :=
  ∀ (s : State) (x : RegIx), Memory.wf s.mem = true → 1 ≤ x.val → s.i = s.pc + 2 →
    s.i.toNat + x.val ≤ 4095 →
    ∃ t, exec (.ldMemVx x) s = .next t ∧ t.fetch? = some (joinBytes (s.readV 0) (s.readV 1))

/-! ### Display -/

/-- CLS is the one word 0x00E0, and every other word of family 0 but 0x00EE is a no-op, which only advances `PC`.
CLS completes in every state: every pixel is 0, and nothing but the display and `PC` changes, VF included
(44_display.md R186, R189). -/
def Obligations.ClearUnsetsEveryPixel : Prop :=
  (∀ w, decodeWord w = .cls ↔ w = 0x00E0) ∧
  (∀ w, opField w = 0x0 → w ≠ 0x00E0 → w ≠ 0x00EE →
    decodeWord w = .sys (nnnField w) ∧ ∀ s : State, exec (decodeWord w) s = .next { s with pc := s.pc + 2 }) ∧
  ∀ s : State, ∃ t, exec .cls s = .next t ∧ (∀ px py, t.pixel px py = false) ∧ t.pc = s.pc + 2 ∧
    (∀ j, t.readV j = s.readV j) ∧ ReadsAsBefore s t ∧ t = { s with fb := t.fb, pc := t.pc }

/-- DRW with no rows, or with its rows inside memory, completes: a pixel changes exactly when a bit 1 of the
sprite lands on it, coordinates wrapping, and VF is 1 exactly when such a bit lands on a set pixel, else 0;
no other register and no byte changes. The blit's loops against this closed form (44_display.md R187, R190;
the range condition and the order of reads are the spec's decisions D1, D26, D28). -/
def Obligations.DrawXorsTheSprite : Prop :=
  ∀ (s : State) (x y : RegIx) (n : Nibble), n.val = 0 ∨ s.i.toNat + n.val - 1 ≤ 4095 →
    ∃ t, exec (.drw x y n) s = .next t ∧
      (∀ px py, t.pixel px py = true ↔
        ¬ (s.pixel px py = true ↔ SpriteCovers s (s.readV x) (s.readV y) n.val px py)) ∧
      (t.readV 0xF = 1 ∨ t.readV 0xF = 0) ∧
      (t.readV 0xF = 1 ↔
        ∃ px py, SpriteCovers s (s.readV x) (s.readV y) n.val px py ∧ s.pixel px py = true) ∧
      (∀ j, j ≠ 0xF → t.readV j = s.readV j) ∧ ReadsAsBefore s t ∧ t.pc = s.pc + 2 ∧
      t = { s with fb := t.fb, v := t.v, pc := t.pc }

/-- Drawing the same rows at the same coordinates twice restores the grid, and the second call reports an
erasure exactly when a bit 1 of the sprite landed on a pixel that was 0 before the first
(44_display.md R188, marked derived; 90_conflicts.md C6). -/
def Obligations.DrawTwiceRestoresTheGrid : Prop :=
  ∀ (rows : List Byte) (xs ys : Byte) (fb : Grid), rows.length ≤ 15 →
    (draw rows xs ys (draw rows xs ys fb).1).1 = fb ∧
    ((draw rows xs ys (draw rows xs ys fb).1).2 = true ↔
      ∃ px py, RowsCover rows xs ys px py ∧ fb.pixel px py = false)

/-! ### Keys and timers -/

/-- SKP and SKNP with a key index of 0 to 15 complete: `PC` moves on by 4 when the recorded status of the
key is the one asked for and by 2 when not; nothing else changes (45_keys_timers.md R200, R201; the range of
the index is the spec's decision D5). -/
def Obligations.KeySkips : Prop :=
  ∀ (s : State) (x : RegIx) (k : KeyCode), (s.readV x).toNat = k.val →
    (∃ t, exec (.skp x) s = .next t ∧ t.pc = s.pc + (if s.readKey k = true then 4 else 2) ∧ PcFrame s t) ∧
    (∃ t, exec (.sknp x) s = .next t ∧ t.pc = s.pc + (if s.readKey k = true then 2 else 4) ∧ PcFrame s t)

/-- SKP and SKNP with an index above 15 latch `KeyIndexOutOfRange` with the index, and change nothing else
(60_exceptions.md R246, R250; the spec's decisions D3, D4, D5). -/
def Obligations.KeyIndexFaultsLatch : Prop :=
  ∀ (s : State) (x : RegIx), 15 < (s.readV x).toNat →
    exec (.skp x) s = .next { s with
      fault := some ⟨.keyIndexOutOfRange, s.pc, encode (.skp x), (s.readV x).setWidth 17⟩ } ∧
    exec (.sknp x) s = .next { s with
      fault := some ⟨.keyIndexOutOfRange, s.pc, encode (.sknp x), (s.readV x).setWidth 17⟩ }

/-- LD Vx,DT, LD DT,Vx and LD ST,Vx complete in every state and move the value whole; only the destination
and `PC` change, so LD ST,Vx leaves the tone gate (45_keys_timers.md R202, R204, R205). -/
def Obligations.TimerAccess : Prop :=
  ∀ (s : State) (x : RegIx),
    (∃ t, exec (.ldVxDt x) s = .next t ∧ t.readV x = s.dt ∧ RegFrame (· = x) s t) ∧
    (∃ t, exec (.ldDtVx x) s = .next t ∧ t.dt = s.readV x ∧ t.pc = s.pc + 2 ∧
      (∀ j, t.readV j = s.readV j) ∧ ReadsAsBefore s t ∧ t = { s with dt := t.dt, pc := t.pc }) ∧
    (∃ t, exec (.ldStVx x) s = .next t ∧ t.st = s.readV x ∧ t.pc = s.pc + 2 ∧
      (∀ j, t.readV j = s.readV j) ∧ ReadsAsBefore s t ∧ t = { s with st := t.st, pc := t.pc })

/-- LD Vx,K completes in every state: the gate awaits a key for register x, `PC` is at the next
instruction, and nothing else changes, no register included (45_keys_timers.md R203). -/
def Obligations.KeyWaitIsEntered : Prop :=
  ∀ (s : State) (x : RegIx),
    ∃ t, exec (.ldVxK x) s = .next t ∧ t.wait = .awaitingKey x ∧ t.pc = s.pc + 2 ∧
      (∀ j, t.readV j = s.readV j) ∧ ReadsAsBefore s t ∧ t = { s with wait := t.wait, pc := t.pc }

/-! ### Whole-machine rules over all instructions -/

/-- Only the instructions the spec names write each component, and no instruction writes `KEY`, `TONE` or
the model's schedule and reply: memory LD B and LD [I]; the display CLS and DRW; the stack CALL; `SP` CALL
and RET; `I` its three; `DT` and `ST` one each; `WAIT` LD Vx,K; a register only as a destination, as VF of
the six that set a flag, or in the range of the block load (10_state.md R23, R27 to R33, R36, 20_memory.md
R61, 45_keys_timers.md R206). -/
def Obligations.OnlyNamedInstructionsWrite : Prop :=
  ∀ (i : Instr) (s t : State), exec i s = .next t →
    (t.mem ≠ s.mem → ∃ x, i = .ldB x ∨ i = .ldMemVx x) ∧
    (t.fb ≠ s.fb → i = .cls ∨ ∃ x y n, i = .drw x y n) ∧
    (t.stack ≠ s.stack → ∃ nnn, i = .call nnn) ∧
    (t.sp ≠ s.sp → i = .ret ∨ ∃ nnn, i = .call nnn) ∧
    (t.i ≠ s.i → (∃ nnn, i = .ldI nnn) ∨ ∃ x, i = .addI x ∨ i = .ldF x) ∧
    (t.dt ≠ s.dt → ∃ x, i = .ldDtVx x) ∧
    (t.st ≠ s.st → ∃ x, i = .ldStVx x) ∧
    (t.wait ≠ s.wait → ∃ x, i = .ldVxK x ∧ t.wait = .awaitingKey x) ∧
    (t.draws ≠ s.draws → ∃ x kk, i = .rnd x kk) ∧
    (∀ j, t.readV j ≠ s.readV j → MayWriteReg i j) ∧
    t.key = s.key ∧ t.tone = s.tone ∧ t.events = s.events ∧ t.loadReply = s.loadReply

/-- The flag contract of VF: ADD, SUB, SHR, SUBN and SHL, with a destination other than VF, and DRW when it
completes leave 0 or 1 in VF on every execution; no other instruction whose destinations do not include VF
changes it (10_state.md R23). -/
def Obligations.FlagRegisterContract : Prop :=
  ∀ (i : Instr) (s t : State), exec i s = .next t →
    (∀ x y, x ≠ 0xF →
      i = .addReg x y ∨ i = .sub x y ∨ i = .shr x y ∨ i = .subn x y ∨ i = .shl x y →
      t.readV 0xF = 0 ∨ t.readV 0xF = 1) ∧
    (∀ x y n, i = .drw x y n → ¬ FaultCondition i s → t.readV 0xF = 0 ∨ t.readV 0xF = 1) ∧
    (¬ MayWriteReg i 0xF → t.readV 0xF = s.readV 0xF)

/-- An instruction faults exactly under its condition in the table of R246, and then the latch alone is
written, with the address and the word of the instruction; otherwise the latch is as before
(60_exceptions.md R246, R252, R256; the spec's decisions D1 to D5). -/
def Obligations.FaultsArePreciseAndExactlyThoseListed : Prop :=
  ∀ (i : Instr) (s : State), s.fault = none →
    ∃ t, exec i s = .next t ∧
      (FaultCondition i s → ∃ r, t = { s with fault := some r } ∧ r.pc = s.pc ∧ r.instr = encode i ∧
        r.explains s = true) ∧
      (¬ FaultCondition i s → t.fault = none)

/-! ### The frame driver -/

/-- A step of the machine takes the first event off the host's schedule and handles it from beginning to end;
with nothing scheduled it is one instruction step (46_frame_driver_input_gate.md R215, R233). That the schedule
stands in the state is the model's choice (notes/assumptions/5.md). -/
def Obligations.ScheduledEventIsHandled : Prop :=
  ∀ s : State,
    (s.events = [] → step s = s.handle .step) ∧
    (∀ e rest, s.events = e :: rest → step s = { s with events := rest }.handle e)

/-- A tick while a key is awaited, with no fault latched, stops the tone gate and does nothing else: no step, no
timer (46_frame_driver_input_gate.md R216). -/
def Obligations.PausedTickOnlyStopsTheTone : Prop :=
  ∀ (s : State) (speed : Nat) (x : RegIx), 1 ≤ speed → s.fault = none → s.wait = .awaitingKey x →
    s.handle (.tick speed) = .next { s with tone := false }

/-- A tick that is not paused, with no fault latched, first moves the timers, each by one and never below 0, and
opens the tone gate exactly when the sound timer was not 0, changing nothing else; then it runs the steps (46_frame_driver_input_gate.md R218, R219). -/
def Obligations.TickMovesTimersBeforeSteps : Prop :=
  ∀ (s : State) (speed : Nat), 1 ≤ speed → s.fault = none → s.wait = .running →
    ∃ u : State, s.handle (.tick speed) = runSteps speed u ∧
      u.dt.toNat = s.dt.toNat - 1 ∧ u.st.toNat = s.st.toNat - 1 ∧
      (u.tone = true ↔ 0 < s.st.toNat) ∧
      u = { s with dt := u.dt, st := u.st, tone := u.tone }

/-- The step loop of a tick runs at least one and at most `speed` steps, the first of them all, and stops
short only at a key wait or a fault (46_frame_driver_input_gate.md R220, 70_reset_and_hazards.md R288; that a
fault ends the loop is the spec's decision D24). -/
def Obligations.TickRunsStepsUntilWaitOrFault : Prop :=
  ∀ (speed : Nat) (s t : State), 1 ≤ speed → s.canExecute = true → runSteps speed s = .next t →
    ∃ k, 1 ≤ k ∧ k ≤ speed ∧ stepsInARow k s = .next t ∧
      (k < speed → t.fault ≠ none ∨ t.wait ≠ .running) ∧
      ∀ j < k, ∃ u, stepsInARow j s = .next u ∧ u.fault = none ∧ u.wait = .running

/-- Leaving the loop is equivalent to continuing, since a gated step does nothing: the loop of a tick
answers what `speed` steps in a row answer (46_frame_driver_input_gate.md R220; D12, D24). -/
def Obligations.LeavingTheLoopEqualsContinuing : Prop :=
  ∀ (speed : Nat) (s : State), runSteps speed s = stepsInARow speed s

/-- A tick with `speed = 0` is outside the interface and has no move: the model stops with a fault of its
own (46_frame_driver_input_gate.md R217, D17; notes/assumptions/8.md). -/
def Obligations.ZeroSpeedTickHasNoMove : Prop :=
  ∀ (s : State) (rest : List Event), s.events = .tick 0 :: rest → step s = .fault .zeroSpeedTick

/-- An ended run stays ended. At a jump to itself a step changes nothing, and every event but a load or a reset
leaves the run ended and changes nothing of the CORE but the timers, the tone gate and the key record
(46_frame_driver_input_gate.md R234). What counts as the end of a run, and that the schedule stands in the
state, are the model's choices (notes/assumptions/18.md, 5.md). -/
def Obligations.EndedRunStaysEnded : Prop :=
  ∀ s : State, s.ended = true → s.instrStep = .next s ∧
    ∀ t, step s = .next t →
      (∃ rest, s.events = .reset :: rest) ∨ (∃ bytes rest, s.events = .load bytes :: rest) ∨
      (t.ended = true ∧
        t = { s with events := t.events, dt := t.dt, st := t.st, tone := t.tone, key := t.key })

/-! ### The input gate -/

/-- A key event that differs from the recorded status records it; a press while a key is awaited also writes
the code to the register waited for and ends the wait; every other processed event writes the record only,
and a repeat changes nothing. No instruction runs (46_frame_driver_input_gate.md R223 to R225). -/
def Obligations.KeyEventsFollowTheGate : Prop :=
  ∀ (s : State) (code : KeyCode) (pressed : Bool) (rest : List Event),
    s.events = .key code pressed :: rest → s.fault = none →
    (s.readKey code = pressed → step s = .next { s with events := rest }) ∧
    (s.readKey code ≠ pressed →
      ∃ t, step s = .next t ∧ t.readKey code = pressed ∧ (∀ k, k ≠ code → t.readKey k = s.readKey k) ∧
        (∀ x, pressed = true → s.wait = .awaitingKey x →
          (t.readV x).toNat = code.val ∧ (∀ j, j ≠ x → t.readV j = s.readV j) ∧
          t = { s with events := rest, key := t.key, v := t.v, wait := .running }) ∧
        (pressed = false ∨ s.wait = .running → t = { s with events := rest, key := t.key }))

/-- The gate as a state machine, over every step of the machine. A key wait is left only by a press of a key
recorded as released, which writes its code to the register waited for, or by a reset; else it stays and no
register, `PC`, timer or pixel changes (46_frame_driver_input_gate.md R228, 60_exceptions.md R265; the
machine's schedule is the model's, notes/assumptions/5.md). -/
def Obligations.KeyWaitIsLeftOnlyByPressOrReset : Prop :=
  ∀ (s t : State) (x : RegIx), s.wait = .awaitingKey x → step s = .next t →
    (t.wait = .awaitingKey x ∧ t.v = s.v ∧ t.pc = s.pc ∧ t.i = s.i ∧ t.sp = s.sp ∧ t.dt = s.dt ∧
      t.st = s.st ∧ t.fb = s.fb ∧ t.fault = s.fault) ∨
    (∃ code rest, s.events = .key code true :: rest ∧ s.readKey code = false ∧ s.fault = none ∧
      t.wait = .running ∧ (t.readV x).toNat = code.val ∧ t.pc = s.pc) ∨
    (∃ rest, s.events = .reset :: rest ∧ t.wait = .running ∧ t.pc = 0x200)

/-- From Running, only the instruction Fx0A with register field x goes to AwaitingKey(x)
(46_frame_driver_input_gate.md R228, 10_state.md R32). -/
def Obligations.OnlyKeyWaitInstructionEntersTheWait : Prop :=
  ∀ (s t : State) (x : RegIx), s.wait = .running → s.instrStep = .next t → t.wait = .awaitingKey x →
    s.fetch? = some (encode (.ldVxK x))

/-! ### Reset, load, power-on -/

/-- The reset event gives every component the value of the table of R38 and leaves memory and the stack as
they were; it works in every state (10_state.md R38, 46_frame_driver_input_gate.md R227). That `TONE` and
`FAULT` are cleared is the spec's decision D29; that the model's own draw counter, schedule and reply are
kept is the model's choice (notes/assumptions/4.md, 5.md, 6.md). -/
def Obligations.ResetEventValues : Prop :=
  ∀ (s : State) (rest : List Event), s.events = .reset :: rest →
    ∃ t, step s = .next t ∧ (∀ j, t.readV j = 0) ∧ t.i = 0 ∧ t.pc = 0x200 ∧ t.sp = 0 ∧ t.dt = 0 ∧ t.st = 0 ∧
      t.wait = .running ∧ (∀ k, t.readKey k = false) ∧ (∀ px py, t.pixel px py = false) ∧
      t.tone = false ∧ t.fault = none ∧ ReadsAsBefore s t ∧ t.stack = s.stack ∧ t.mem = s.mem ∧
      t.draws = s.draws ∧ t.events = rest ∧ t.loadReply = s.loadReply

/-- The state after power-on: the registers, timers, gate, keys, display, tone and latch have the values of
the table of R38 (10_state.md R38, R40; `TONE` and `FAULT`: the spec's decision D29), and, by the model's own
choice, memory lists nothing (notes/assumptions/1.md, 2.md) and no event is scheduled (5.md). Nothing is said of
`STACK`, whose zeros are the model's choice (3.md). -/
def Obligations.ResetStateValues : Prop :=
  (∀ j, State.reset.readV j = 0) ∧ State.reset.i = 0 ∧ State.reset.pc = 0x200 ∧ State.reset.sp = 0 ∧
  State.reset.dt = 0 ∧ State.reset.st = 0 ∧ State.reset.wait = .running ∧
  (∀ k, State.reset.readKey k = false) ∧ (∀ px py, State.reset.pixel px py = false) ∧
  State.reset.tone = false ∧ State.reset.fault = none ∧ State.reset.mem = [] ∧ State.reset.events = []

/-- A load that fits copies its bytes to 0x200 and up, one after the other, and writes no other address and
no other component of the CORE; nothing is reset (46_frame_driver_input_gate.md R229). The reply is the
model's own field (notes/assumptions/6.md). -/
def Obligations.LoadCopiesTheBytes : Prop :=
  ∀ (s : State) (bytes : List Byte) (rest : List Event), s.events = .load bytes :: rest →
    Memory.wf s.mem = true → bytes.length ≤ 3584 →
    ∃ t, step s = .next t ∧
      (∀ k (h : k < bytes.length), t.readByte (0x200 + k) = bytes[k]) ∧
      ReadsAsBeforeOutside 0x200 bytes.length s t ∧ t.loadReply = some .ok ∧
      t = { s with mem := t.mem, events := rest, loadReply := t.loadReply }

/-- A load longer than 3584 bytes changes no component of the CORE and is reported to the host, in the model's
own reply field (notes/assumptions/6.md) (46_frame_driver_input_gate.md R230, 60_exceptions.md R258; the spec's decision D19). -/
def Obligations.LongLoadIsRejected : Prop :=
  ∀ (s : State) (bytes : List Byte) (rest : List Event), s.events = .load bytes :: rest →
    3584 < bytes.length →
    step s = .next { s with events := rest, loadReply := some .loadOutOfBounds }

/-- Reset and load commute: the two orders of the host's procedure give the same state
(70_reset_and_hazards.md R283, marked derived). -/
def Obligations.LoadAndResetCommute : Prop :=
  ∀ (s : State) (bytes : List Byte), (s.load bytes).resetEvent = s.resetEvent.load bytes

/-- Power-on for any values of the open parameters: memory holds `FONT` at 0 to 79 and `MEM_INIT` from 80 to
4095, the stack is the one given, and every other component has its reset value (10_state.md R40, 20_memory.md
R73; the spec's decisions D14, D15, D23). -/
def Obligations.PowerOnHoldsTheParameters : Prop :=
  ∀ (font : Vector Byte 80) (memInit : Vector Byte 4016) (stack : Vector Word 16),
    (∀ a : Fin 80, (State.powerOn font memInit stack).readByte a.val = font[a]) ∧
    (∀ a : Fin 4016, (State.powerOn font memInit stack).readByte (80 + a.val) = memInit[a]) ∧
    Memory.wf (State.powerOn font memInit stack).mem = true ∧
    State.powerOn font memInit stack =
      { State.reset with mem := (State.powerOn font memInit stack).mem, stack := stack }

/-! ### Faults over whole runs, and the invariant -/

/-- After a fault the CORE is halted: a step, a tick and a key event change no component of it, a load writes
memory only, and a reset clears the latch (60_exceptions.md R253, 46_frame_driver_input_gate.md R222, R226; the
spec's decision D24). -/
def Obligations.FaultedMachineIsHalted : Prop :=
  ∀ (s t : State) (r : FaultRecord), s.fault = some r → step s = .next t →
    (∃ rest, s.events = .reset :: rest ∧ t.fault = none) ∨
    (t.fault = some r ∧ ∃ rest, (s.events = [] ∧ rest = [] ∨ ∃ e, s.events = e :: rest) ∧
      (t = { s with events := rest } ∨
        ∃ bytes, s.events = .load bytes :: rest ∧
          t = { s with events := rest, mem := t.mem, loadReply := t.loadReply }))

/-- Every step of the machine, whatever event it handles, keeps the invariant: memory in canonical form, a
latch that holds its cause's row of R246 and an address equal to `PC`, stack entries in use at most 4096, and
`PC` at most 0x10FE, so that no arithmetic on `PC` is ever reduced (60_exceptions.md R246, R252, 10_state.md
R26, R29, 41_flow.md R136; the spec's decisions D1 to D5, D27). -/
def Obligations.StepKeepsTheInvariant : Prop :=
  ∀ s t : State, s.Inv → step s = .next t → t.Inv

/-- The invariant of `StepKeepsTheInvariant` holds in the state after power-on. -/
def Obligations.ResetMeetsTheInvariant : Prop := State.reset.Inv

/-- Every step answers a next state, but for a tick of speed 0, which is outside the interface: the
instruction set is total and no data ends a run (30_encoding.md R101, 40_fetch_step.md R123,
46_frame_driver_input_gate.md R217). -/
def Obligations.EveryStepCompletes : Prop :=
  ∀ s : State, (∀ rest, s.events ≠ .tick 0 :: rest) → ∃ t, step s = .next t
end

