-- ==== Sys2Proof/Laws/Decode.lean ====
section
/-! SUPPORT. The fields of a word as arithmetic, the fields of each format's words, and the words built from
the fields of a word. -/

namespace Sys2Proof

/-! ### Fields as arithmetic -/

theorem opField_val (w : Word) : (opField w).val = w.toNat / 4096 := by
  have := w.isLt
  simp [opField, BitVec.extractLsb'_toNat, Nat.shiftRight_eq_div_pow]; omega

theorem xField_val (w : Word) : (xField w).val = w.toNat / 256 % 16 := by
  simp [xField, BitVec.extractLsb'_toNat, Nat.shiftRight_eq_div_pow]

theorem yField_val (w : Word) : (yField w).val = w.toNat / 16 % 16 := by
  simp [yField, BitVec.extractLsb'_toNat, Nat.shiftRight_eq_div_pow]

theorem nField_val (w : Word) : (nField w).val = w.toNat % 16 := by
  simp [nField, BitVec.extractLsb'_toNat]

theorem kkField_toNat (w : Word) : (kkField w).toNat = w.toNat % 256 := by
  simp [kkField, BitVec.extractLsb'_toNat]

theorem nnnField_toNat (w : Word) : (nnnField w).toNat = w.toNat % 4096 := by
  simp [nnnField, BitVec.extractLsb'_toNat]

/-! ### The words of each format as arithmetic -/

theorem toNat_append_eq {m n : Nat} (a : BitVec m) (b : BitVec n) :
    (a ++ b).toNat = a.toNat * 2 ^ n + b.toNat := by
  rw [BitVec.toNat_append, ← Nat.shiftLeft_add_eq_or_of_lt b.isLt, Nat.shiftLeft_eq]

@[simp] theorem nibbleBits_toNat (n : Nibble) : (nibbleBits n).toNat = n.val := by
  simp [nibbleBits]

theorem formNNN_toNat (op : Nibble) (nnn : Addr12) : (formNNN op nnn).toNat = op.val * 4096 + nnn.toNat := by
  rw [formNNN, toNat_append_eq]; simp

theorem formXKK_toNat (op : Nibble) (x : RegIx) (kk : Byte) :
    (formXKK op x kk).toNat = op.val * 4096 + x.val * 256 + kk.toNat := by
  rw [formXKK, toNat_append_eq, toNat_append_eq]; simp; omega

theorem formXYN_toNat (op : Nibble) (x y : RegIx) (n : Nibble) :
    (formXYN op x y n).toNat = op.val * 4096 + x.val * 256 + y.val * 16 + n.val := by
  rw [formXYN, toNat_append_eq, toNat_append_eq, toNat_append_eq]; simp; omega

/-! ### The fields of the words of each format -/

section fields
variable (op n : Nibble) (x y : RegIx) (kk : Byte) (nnn : Addr12)

@[simp] theorem opField_formNNN : opField (formNNN op nnn) = op := by
  apply Fin.ext; rw [opField_val, formNNN_toNat]; omega

@[simp] theorem nnnField_formNNN : nnnField (formNNN op nnn) = nnn := by
  apply BitVec.eq_of_toNat_eq; rw [nnnField_toNat, formNNN_toNat]; omega

@[simp] theorem opField_formXKK : opField (formXKK op x kk) = op := by
  apply Fin.ext; rw [opField_val, formXKK_toNat]; omega

@[simp] theorem xField_formXKK : xField (formXKK op x kk) = x := by
  apply Fin.ext; rw [xField_val, formXKK_toNat]; omega

@[simp] theorem kkField_formXKK : kkField (formXKK op x kk) = kk := by
  apply BitVec.eq_of_toNat_eq; rw [kkField_toNat, formXKK_toNat]; omega

@[simp] theorem opField_formXYN : opField (formXYN op x y n) = op := by
  apply Fin.ext; rw [opField_val, formXYN_toNat]; omega

@[simp] theorem xField_formXYN : xField (formXYN op x y n) = x := by
  apply Fin.ext; rw [xField_val, formXYN_toNat]; omega

@[simp] theorem yField_formXYN : yField (formXYN op x y n) = y := by
  apply Fin.ext; rw [yField_val, formXYN_toNat]; omega

@[simp] theorem nField_formXYN : nField (formXYN op x y n) = n := by
  apply Fin.ext; rw [nField_val, formXYN_toNat]; omega

end fields

/-! ### The dispatch, nibble by nibble -/

/-- The dispatch once: what holds of the arm of every high nibble holds of the decoded word. -/
theorem decodeWord_cases {P : Instr → Prop} (w : Word)
    (h0 : opField w = 0x0 → P (decodeFamily0 w)) (h1 : opField w = 0x1 → P (.jp (nnnField w)))
    (h2 : opField w = 0x2 → P (.call (nnnField w))) (h3 : opField w = 0x3 → P (.seImm (xField w) (kkField w)))
    (h4 : opField w = 0x4 → P (.sneImm (xField w) (kkField w)))
    (h5 : opField w = 0x5 → P (.seReg (xField w) (yField w) (nField w)))
    (h6 : opField w = 0x6 → P (.ldImm (xField w) (kkField w)))
    (h7 : opField w = 0x7 → P (.addImm (xField w) (kkField w)))
    (h8 : opField w = 0x8 → P (decodeFamily8 (xField w) (yField w) (nField w)))
    (h9 : opField w = 0x9 → P (.sneReg (xField w) (yField w) (nField w)))
    (hA : opField w = 0xA → P (.ldI (nnnField w))) (hB : opField w = 0xB → P (.jpV0 (nnnField w)))
    (hC : opField w = 0xC → P (.rnd (xField w) (kkField w)))
    (hD : opField w = 0xD → P (.drw (xField w) (yField w) (nField w)))
    (hE : opField w = 0xE → P (decodeFamilyE (xField w) (kkField w)))
    (hF : opField w = 0xF → P (decodeFamilyF (xField w) (kkField w))) : P (decodeWord w) := by
  unfold decodeWord
  split
  all_goals first
    | (rename_i h; revert h; assumption)
    | (apply hF
       have := (opField w).isLt
       simp only [Fin.ext_iff] at *
       simp_all
       omega)

/-! ### A word is built from its fields -/

theorem formNNN_fields (w : Word) : formNNN (opField w) (nnnField w) = w := by
  apply BitVec.eq_of_toNat_eq; rw [formNNN_toNat, opField_val, nnnField_toNat]; omega

theorem formXKK_fields (w : Word) : formXKK (opField w) (xField w) (kkField w) = w := by
  apply BitVec.eq_of_toNat_eq; rw [formXKK_toNat, opField_val, xField_val, kkField_toNat]; omega

theorem formXYN_fields (w : Word) : formXYN (opField w) (xField w) (yField w) (nField w) = w := by
  apply BitVec.eq_of_toNat_eq; rw [formXYN_toNat, opField_val, xField_val, yField_val, nField_val]; omega

/-! ### Words and their bytes -/

theorem joinBytes_toNat (hi lo : Byte) : (joinBytes hi lo).toNat = hi.toNat * 256 + lo.toNat := by
  exact toNat_append_eq hi lo

theorem highByte_toNat (w : Word) : (highByte w).toNat = w.toNat / 256 := by
  have := w.isLt
  simp [highByte, BitVec.extractLsb'_toNat, Nat.shiftRight_eq_div_pow]; omega

theorem lowByte_toNat (w : Word) : (lowByte w).toNat = w.toNat % 256 := by
  simp [lowByte, BitVec.extractLsb'_toNat]

@[simp] theorem joinBytes_bytes (w : Word) : joinBytes (highByte w) (lowByte w) = w := by
  apply BitVec.eq_of_toNat_eq; rw [joinBytes_toNat, highByte_toNat, lowByte_toNat]; omega

@[simp] theorem highByte_joinBytes (hi lo : Byte) : highByte (joinBytes hi lo) = hi := by
  apply BitVec.eq_of_toNat_eq; rw [highByte_toNat, joinBytes_toNat]; omega

@[simp] theorem lowByte_joinBytes (hi lo : Byte) : lowByte (joinBytes hi lo) = lo := by
  apply BitVec.eq_of_toNat_eq; rw [lowByte_toNat, joinBytes_toNat]; omega

/-! ### The masks of the opcode table read the fields -/

theorem toNat_and_F000 (w : Word) : (w &&& (0xF000 : Word)).toNat = (opField w).val * 4096 := by
  have hm : (0xF000 : Word) = (0xF : BitVec 4) ++ (0 : BitVec 12) := by decide
  have hw : w = nibbleBits (opField w) ++ nnnField w := (formNNN_fields w).symm
  have hf : nibbleBits (opField w) &&& 0xF = nibbleBits (opField w) := BitVec.and_allOnes
  have h0 : nnnField w &&& 0 = 0 := BitVec.and_zero
  conv_lhs => rw [hm, hw, BitVec.and_append, hf, h0]
  rw [toNat_append_eq]; simp

theorem toNat_and_F00F (w : Word) :
    (w &&& (0xF00F : Word)).toNat = (opField w).val * 4096 + (nField w).val := by
  have hm : (0xF00F : Word) = ((0xF : BitVec 4) ++ (0 : BitVec 4)) ++ ((0 : BitVec 4) ++ (0xF : BitVec 4)) := by
    decide
  have hw : w = (nibbleBits (opField w) ++ nibbleBits (xField w)) ++
      (nibbleBits (yField w) ++ nibbleBits (nField w)) := (formXYN_fields w).symm
  have hf : ∀ b : BitVec 4, b &&& 0xF = b := fun _ => BitVec.and_allOnes
  have h0 : ∀ b : BitVec 4, b &&& 0 = 0 := fun _ => BitVec.and_zero
  conv_lhs => rw [hm, hw, BitVec.and_append, BitVec.and_append, BitVec.and_append, hf, hf, h0, h0]
  rw [toNat_append_eq, toNat_append_eq, toNat_append_eq]; simp; omega

theorem toNat_and_F0FF (w : Word) :
    (w &&& (0xF0FF : Word)).toNat = (opField w).val * 4096 + (kkField w).toNat := by
  have hm : (0xF0FF : Word) = ((0xF : BitVec 4) ++ (0 : BitVec 4)) ++ (0xFF : BitVec 8) := by decide
  have hw : w = (nibbleBits (opField w) ++ nibbleBits (xField w)) ++ kkField w := (formXKK_fields w).symm
  have hf : nibbleBits (opField w) &&& 0xF = nibbleBits (opField w) := BitVec.and_allOnes
  have hk : kkField w &&& 0xFF = kkField w := BitVec.and_allOnes
  have h0 : nibbleBits (xField w) &&& 0 = 0 := BitVec.and_zero
  conv_lhs => rw [hm, hw, BitVec.and_append, BitVec.and_append, hf, hk, h0]
  rw [toNat_append_eq, toNat_append_eq]; simp; omega

/-- A row that fixes the high nibble only. -/
theorem selects_F000 (m : String) (v w : Word) :
    (OpcodeRow.mk m 0xF000 v).selects w = decide ((opField w).val * 4096 = v.toNat) := by
  rw [Bool.eq_iff_iff, OpcodeRow.selects, beq_iff_eq, decide_eq_true_iff, ← BitVec.toNat_inj, toNat_and_F000]

/-- A row that fixes the high and the low nibble. -/
theorem selects_F00F (m : String) (v w : Word) :
    (OpcodeRow.mk m 0xF00F v).selects w =
      decide ((opField w).val * 4096 + (nField w).val = v.toNat) := by
  rw [Bool.eq_iff_iff, OpcodeRow.selects, beq_iff_eq, decide_eq_true_iff, ← BitVec.toNat_inj, toNat_and_F00F]

/-- A row that fixes the high nibble and the low byte. -/
theorem selects_F0FF (m : String) (v w : Word) :
    (OpcodeRow.mk m 0xF0FF v).selects w =
      decide ((opField w).val * 4096 + (kkField w).toNat = v.toNat) := by
  rw [Bool.eq_iff_iff, OpcodeRow.selects, beq_iff_eq, decide_eq_true_iff, ← BitVec.toNat_inj, toNat_and_F0FF]

/-- A row that fixes the whole word. -/
theorem selects_FFFF (m : String) (v w : Word) : (OpcodeRow.mk m 0xFFFF v).selects w = decide (w = v) := by
  have h : w &&& (0xFFFF : Word) = w := BitVec.and_allOnes
  rw [Bool.eq_iff_iff, OpcodeRow.selects, beq_iff_eq, decide_eq_true_iff, h]

/-! ### The decoder of bytes -/

@[simp] theorem decode_cons_cons (hi lo : Byte) (rest : List Byte) :
    decode (hi :: lo :: rest) = .ok (decodeWord (joinBytes hi lo), rest) := rfl

end Sys2Proof
end

