-- ==== Sys2Proof/Laws/State.lean ====
section
/-! SUPPORT. One lemma per field per named update of the state, true by rfl, so that no proof unfolds a
record update; and the equations of the two outcomes a meaning can answer. -/

namespace Sys2Proof.Machine

variable (s : State)

/-! ### `State.advance` -/

@[simp] theorem State.advance_mem : (s.advance).mem = s.mem := rfl
@[simp] theorem State.advance_v : (s.advance).v = s.v := rfl
@[simp] theorem State.advance_i : (s.advance).i = s.i := rfl
@[simp] theorem State.advance_pc : (s.advance).pc = s.pc + 2 := rfl
@[simp] theorem State.advance_stack : (s.advance).stack = s.stack := rfl
@[simp] theorem State.advance_sp : (s.advance).sp = s.sp := rfl
@[simp] theorem State.advance_dt : (s.advance).dt = s.dt := rfl
@[simp] theorem State.advance_st : (s.advance).st = s.st := rfl
@[simp] theorem State.advance_key : (s.advance).key = s.key := rfl
@[simp] theorem State.advance_wait : (s.advance).wait = s.wait := rfl
@[simp] theorem State.advance_fb : (s.advance).fb = s.fb := rfl
@[simp] theorem State.advance_tone : (s.advance).tone = s.tone := rfl
@[simp] theorem State.advance_fault : (s.advance).fault = s.fault := rfl
@[simp] theorem State.advance_draws : (s.advance).draws = s.draws := rfl
@[simp] theorem State.advance_events : (s.advance).events = s.events := rfl
@[simp] theorem State.advance_loadReply : (s.advance).loadReply = s.loadReply := rfl

/-! ### `State.setPc` -/

@[simp] theorem State.setPc_mem (w : Word) : (s.setPc w).mem = s.mem := rfl
@[simp] theorem State.setPc_v (w : Word) : (s.setPc w).v = s.v := rfl
@[simp] theorem State.setPc_i (w : Word) : (s.setPc w).i = s.i := rfl
@[simp] theorem State.setPc_pc (w : Word) : (s.setPc w).pc = w := rfl
@[simp] theorem State.setPc_stack (w : Word) : (s.setPc w).stack = s.stack := rfl
@[simp] theorem State.setPc_sp (w : Word) : (s.setPc w).sp = s.sp := rfl
@[simp] theorem State.setPc_dt (w : Word) : (s.setPc w).dt = s.dt := rfl
@[simp] theorem State.setPc_st (w : Word) : (s.setPc w).st = s.st := rfl
@[simp] theorem State.setPc_key (w : Word) : (s.setPc w).key = s.key := rfl
@[simp] theorem State.setPc_wait (w : Word) : (s.setPc w).wait = s.wait := rfl
@[simp] theorem State.setPc_fb (w : Word) : (s.setPc w).fb = s.fb := rfl
@[simp] theorem State.setPc_tone (w : Word) : (s.setPc w).tone = s.tone := rfl
@[simp] theorem State.setPc_fault (w : Word) : (s.setPc w).fault = s.fault := rfl
@[simp] theorem State.setPc_draws (w : Word) : (s.setPc w).draws = s.draws := rfl
@[simp] theorem State.setPc_events (w : Word) : (s.setPc w).events = s.events := rfl
@[simp] theorem State.setPc_loadReply (w : Word) : (s.setPc w).loadReply = s.loadReply := rfl

/-! ### `State.writeV` -/

@[simp] theorem State.writeV_mem (x : RegIx) (b : Byte) : (s.writeV x b).mem = s.mem := rfl
@[simp] theorem State.writeV_v (x : RegIx) (b : Byte) : (s.writeV x b).v = s.v.set x b := rfl
@[simp] theorem State.writeV_i (x : RegIx) (b : Byte) : (s.writeV x b).i = s.i := rfl
@[simp] theorem State.writeV_pc (x : RegIx) (b : Byte) : (s.writeV x b).pc = s.pc := rfl
@[simp] theorem State.writeV_stack (x : RegIx) (b : Byte) : (s.writeV x b).stack = s.stack := rfl
@[simp] theorem State.writeV_sp (x : RegIx) (b : Byte) : (s.writeV x b).sp = s.sp := rfl
@[simp] theorem State.writeV_dt (x : RegIx) (b : Byte) : (s.writeV x b).dt = s.dt := rfl
@[simp] theorem State.writeV_st (x : RegIx) (b : Byte) : (s.writeV x b).st = s.st := rfl
@[simp] theorem State.writeV_key (x : RegIx) (b : Byte) : (s.writeV x b).key = s.key := rfl
@[simp] theorem State.writeV_wait (x : RegIx) (b : Byte) : (s.writeV x b).wait = s.wait := rfl
@[simp] theorem State.writeV_fb (x : RegIx) (b : Byte) : (s.writeV x b).fb = s.fb := rfl
@[simp] theorem State.writeV_tone (x : RegIx) (b : Byte) : (s.writeV x b).tone = s.tone := rfl
@[simp] theorem State.writeV_fault (x : RegIx) (b : Byte) : (s.writeV x b).fault = s.fault := rfl
@[simp] theorem State.writeV_draws (x : RegIx) (b : Byte) : (s.writeV x b).draws = s.draws := rfl
@[simp] theorem State.writeV_events (x : RegIx) (b : Byte) : (s.writeV x b).events = s.events := rfl
@[simp] theorem State.writeV_loadReply (x : RegIx) (b : Byte) : (s.writeV x b).loadReply = s.loadReply := rfl

/-! ### `State.writeFlagThenV` -/

@[simp] theorem State.writeFlagThenV_mem (x : RegIx) (f b : Byte) : (s.writeFlagThenV x f b).mem = s.mem := rfl
@[simp] theorem State.writeFlagThenV_v (x : RegIx) (f b : Byte) : (s.writeFlagThenV x f b).v = (s.v.set regVF f).set x b := rfl
@[simp] theorem State.writeFlagThenV_i (x : RegIx) (f b : Byte) : (s.writeFlagThenV x f b).i = s.i := rfl
@[simp] theorem State.writeFlagThenV_pc (x : RegIx) (f b : Byte) : (s.writeFlagThenV x f b).pc = s.pc := rfl
@[simp] theorem State.writeFlagThenV_stack (x : RegIx) (f b : Byte) : (s.writeFlagThenV x f b).stack = s.stack := rfl
@[simp] theorem State.writeFlagThenV_sp (x : RegIx) (f b : Byte) : (s.writeFlagThenV x f b).sp = s.sp := rfl
@[simp] theorem State.writeFlagThenV_dt (x : RegIx) (f b : Byte) : (s.writeFlagThenV x f b).dt = s.dt := rfl
@[simp] theorem State.writeFlagThenV_st (x : RegIx) (f b : Byte) : (s.writeFlagThenV x f b).st = s.st := rfl
@[simp] theorem State.writeFlagThenV_key (x : RegIx) (f b : Byte) : (s.writeFlagThenV x f b).key = s.key := rfl
@[simp] theorem State.writeFlagThenV_wait (x : RegIx) (f b : Byte) : (s.writeFlagThenV x f b).wait = s.wait := rfl
@[simp] theorem State.writeFlagThenV_fb (x : RegIx) (f b : Byte) : (s.writeFlagThenV x f b).fb = s.fb := rfl
@[simp] theorem State.writeFlagThenV_tone (x : RegIx) (f b : Byte) : (s.writeFlagThenV x f b).tone = s.tone := rfl
@[simp] theorem State.writeFlagThenV_fault (x : RegIx) (f b : Byte) : (s.writeFlagThenV x f b).fault = s.fault := rfl
@[simp] theorem State.writeFlagThenV_draws (x : RegIx) (f b : Byte) : (s.writeFlagThenV x f b).draws = s.draws := rfl
@[simp] theorem State.writeFlagThenV_events (x : RegIx) (f b : Byte) : (s.writeFlagThenV x f b).events = s.events := rfl
@[simp] theorem State.writeFlagThenV_loadReply (x : RegIx) (f b : Byte) : (s.writeFlagThenV x f b).loadReply = s.loadReply := rfl

/-! ### `State.loadRegs` -/

@[simp] theorem State.loadRegs_mem (bs : List Byte) : (s.loadRegs bs).mem = s.mem := rfl
@[simp] theorem State.loadRegs_v (bs : List Byte) : (s.loadRegs bs).v = Registers.load s.v 0 bs := rfl
@[simp] theorem State.loadRegs_i (bs : List Byte) : (s.loadRegs bs).i = s.i := rfl
@[simp] theorem State.loadRegs_pc (bs : List Byte) : (s.loadRegs bs).pc = s.pc := rfl
@[simp] theorem State.loadRegs_stack (bs : List Byte) : (s.loadRegs bs).stack = s.stack := rfl
@[simp] theorem State.loadRegs_sp (bs : List Byte) : (s.loadRegs bs).sp = s.sp := rfl
@[simp] theorem State.loadRegs_dt (bs : List Byte) : (s.loadRegs bs).dt = s.dt := rfl
@[simp] theorem State.loadRegs_st (bs : List Byte) : (s.loadRegs bs).st = s.st := rfl
@[simp] theorem State.loadRegs_key (bs : List Byte) : (s.loadRegs bs).key = s.key := rfl
@[simp] theorem State.loadRegs_wait (bs : List Byte) : (s.loadRegs bs).wait = s.wait := rfl
@[simp] theorem State.loadRegs_fb (bs : List Byte) : (s.loadRegs bs).fb = s.fb := rfl
@[simp] theorem State.loadRegs_tone (bs : List Byte) : (s.loadRegs bs).tone = s.tone := rfl
@[simp] theorem State.loadRegs_fault (bs : List Byte) : (s.loadRegs bs).fault = s.fault := rfl
@[simp] theorem State.loadRegs_draws (bs : List Byte) : (s.loadRegs bs).draws = s.draws := rfl
@[simp] theorem State.loadRegs_events (bs : List Byte) : (s.loadRegs bs).events = s.events := rfl
@[simp] theorem State.loadRegs_loadReply (bs : List Byte) : (s.loadRegs bs).loadReply = s.loadReply := rfl

/-! ### `State.setI` -/

@[simp] theorem State.setI_mem (w : Word) : (s.setI w).mem = s.mem := rfl
@[simp] theorem State.setI_v (w : Word) : (s.setI w).v = s.v := rfl
@[simp] theorem State.setI_i (w : Word) : (s.setI w).i = w := rfl
@[simp] theorem State.setI_pc (w : Word) : (s.setI w).pc = s.pc := rfl
@[simp] theorem State.setI_stack (w : Word) : (s.setI w).stack = s.stack := rfl
@[simp] theorem State.setI_sp (w : Word) : (s.setI w).sp = s.sp := rfl
@[simp] theorem State.setI_dt (w : Word) : (s.setI w).dt = s.dt := rfl
@[simp] theorem State.setI_st (w : Word) : (s.setI w).st = s.st := rfl
@[simp] theorem State.setI_key (w : Word) : (s.setI w).key = s.key := rfl
@[simp] theorem State.setI_wait (w : Word) : (s.setI w).wait = s.wait := rfl
@[simp] theorem State.setI_fb (w : Word) : (s.setI w).fb = s.fb := rfl
@[simp] theorem State.setI_tone (w : Word) : (s.setI w).tone = s.tone := rfl
@[simp] theorem State.setI_fault (w : Word) : (s.setI w).fault = s.fault := rfl
@[simp] theorem State.setI_draws (w : Word) : (s.setI w).draws = s.draws := rfl
@[simp] theorem State.setI_events (w : Word) : (s.setI w).events = s.events := rfl
@[simp] theorem State.setI_loadReply (w : Word) : (s.setI w).loadReply = s.loadReply := rfl

/-! ### `State.setDt` -/

@[simp] theorem State.setDt_mem (b : Byte) : (s.setDt b).mem = s.mem := rfl
@[simp] theorem State.setDt_v (b : Byte) : (s.setDt b).v = s.v := rfl
@[simp] theorem State.setDt_i (b : Byte) : (s.setDt b).i = s.i := rfl
@[simp] theorem State.setDt_pc (b : Byte) : (s.setDt b).pc = s.pc := rfl
@[simp] theorem State.setDt_stack (b : Byte) : (s.setDt b).stack = s.stack := rfl
@[simp] theorem State.setDt_sp (b : Byte) : (s.setDt b).sp = s.sp := rfl
@[simp] theorem State.setDt_dt (b : Byte) : (s.setDt b).dt = b := rfl
@[simp] theorem State.setDt_st (b : Byte) : (s.setDt b).st = s.st := rfl
@[simp] theorem State.setDt_key (b : Byte) : (s.setDt b).key = s.key := rfl
@[simp] theorem State.setDt_wait (b : Byte) : (s.setDt b).wait = s.wait := rfl
@[simp] theorem State.setDt_fb (b : Byte) : (s.setDt b).fb = s.fb := rfl
@[simp] theorem State.setDt_tone (b : Byte) : (s.setDt b).tone = s.tone := rfl
@[simp] theorem State.setDt_fault (b : Byte) : (s.setDt b).fault = s.fault := rfl
@[simp] theorem State.setDt_draws (b : Byte) : (s.setDt b).draws = s.draws := rfl
@[simp] theorem State.setDt_events (b : Byte) : (s.setDt b).events = s.events := rfl
@[simp] theorem State.setDt_loadReply (b : Byte) : (s.setDt b).loadReply = s.loadReply := rfl

/-! ### `State.setSt` -/

@[simp] theorem State.setSt_mem (b : Byte) : (s.setSt b).mem = s.mem := rfl
@[simp] theorem State.setSt_v (b : Byte) : (s.setSt b).v = s.v := rfl
@[simp] theorem State.setSt_i (b : Byte) : (s.setSt b).i = s.i := rfl
@[simp] theorem State.setSt_pc (b : Byte) : (s.setSt b).pc = s.pc := rfl
@[simp] theorem State.setSt_stack (b : Byte) : (s.setSt b).stack = s.stack := rfl
@[simp] theorem State.setSt_sp (b : Byte) : (s.setSt b).sp = s.sp := rfl
@[simp] theorem State.setSt_dt (b : Byte) : (s.setSt b).dt = s.dt := rfl
@[simp] theorem State.setSt_st (b : Byte) : (s.setSt b).st = b := rfl
@[simp] theorem State.setSt_key (b : Byte) : (s.setSt b).key = s.key := rfl
@[simp] theorem State.setSt_wait (b : Byte) : (s.setSt b).wait = s.wait := rfl
@[simp] theorem State.setSt_fb (b : Byte) : (s.setSt b).fb = s.fb := rfl
@[simp] theorem State.setSt_tone (b : Byte) : (s.setSt b).tone = s.tone := rfl
@[simp] theorem State.setSt_fault (b : Byte) : (s.setSt b).fault = s.fault := rfl
@[simp] theorem State.setSt_draws (b : Byte) : (s.setSt b).draws = s.draws := rfl
@[simp] theorem State.setSt_events (b : Byte) : (s.setSt b).events = s.events := rfl
@[simp] theorem State.setSt_loadReply (b : Byte) : (s.setSt b).loadReply = s.loadReply := rfl

/-! ### `State.setWait` -/

@[simp] theorem State.setWait_mem (g : InputGate) : (s.setWait g).mem = s.mem := rfl
@[simp] theorem State.setWait_v (g : InputGate) : (s.setWait g).v = s.v := rfl
@[simp] theorem State.setWait_i (g : InputGate) : (s.setWait g).i = s.i := rfl
@[simp] theorem State.setWait_pc (g : InputGate) : (s.setWait g).pc = s.pc := rfl
@[simp] theorem State.setWait_stack (g : InputGate) : (s.setWait g).stack = s.stack := rfl
@[simp] theorem State.setWait_sp (g : InputGate) : (s.setWait g).sp = s.sp := rfl
@[simp] theorem State.setWait_dt (g : InputGate) : (s.setWait g).dt = s.dt := rfl
@[simp] theorem State.setWait_st (g : InputGate) : (s.setWait g).st = s.st := rfl
@[simp] theorem State.setWait_key (g : InputGate) : (s.setWait g).key = s.key := rfl
@[simp] theorem State.setWait_wait (g : InputGate) : (s.setWait g).wait = g := rfl
@[simp] theorem State.setWait_fb (g : InputGate) : (s.setWait g).fb = s.fb := rfl
@[simp] theorem State.setWait_tone (g : InputGate) : (s.setWait g).tone = s.tone := rfl
@[simp] theorem State.setWait_fault (g : InputGate) : (s.setWait g).fault = s.fault := rfl
@[simp] theorem State.setWait_draws (g : InputGate) : (s.setWait g).draws = s.draws := rfl
@[simp] theorem State.setWait_events (g : InputGate) : (s.setWait g).events = s.events := rfl
@[simp] theorem State.setWait_loadReply (g : InputGate) : (s.setWait g).loadReply = s.loadReply := rfl

/-! ### `State.setKey` -/

@[simp] theorem State.setKey_mem (c : KeyCode) (b : Bool) : (s.setKey c b).mem = s.mem := rfl
@[simp] theorem State.setKey_v (c : KeyCode) (b : Bool) : (s.setKey c b).v = s.v := rfl
@[simp] theorem State.setKey_i (c : KeyCode) (b : Bool) : (s.setKey c b).i = s.i := rfl
@[simp] theorem State.setKey_pc (c : KeyCode) (b : Bool) : (s.setKey c b).pc = s.pc := rfl
@[simp] theorem State.setKey_stack (c : KeyCode) (b : Bool) : (s.setKey c b).stack = s.stack := rfl
@[simp] theorem State.setKey_sp (c : KeyCode) (b : Bool) : (s.setKey c b).sp = s.sp := rfl
@[simp] theorem State.setKey_dt (c : KeyCode) (b : Bool) : (s.setKey c b).dt = s.dt := rfl
@[simp] theorem State.setKey_st (c : KeyCode) (b : Bool) : (s.setKey c b).st = s.st := rfl
@[simp] theorem State.setKey_key (c : KeyCode) (b : Bool) : (s.setKey c b).key = s.key.set c b := rfl
@[simp] theorem State.setKey_wait (c : KeyCode) (b : Bool) : (s.setKey c b).wait = s.wait := rfl
@[simp] theorem State.setKey_fb (c : KeyCode) (b : Bool) : (s.setKey c b).fb = s.fb := rfl
@[simp] theorem State.setKey_tone (c : KeyCode) (b : Bool) : (s.setKey c b).tone = s.tone := rfl
@[simp] theorem State.setKey_fault (c : KeyCode) (b : Bool) : (s.setKey c b).fault = s.fault := rfl
@[simp] theorem State.setKey_draws (c : KeyCode) (b : Bool) : (s.setKey c b).draws = s.draws := rfl
@[simp] theorem State.setKey_events (c : KeyCode) (b : Bool) : (s.setKey c b).events = s.events := rfl
@[simp] theorem State.setKey_loadReply (c : KeyCode) (b : Bool) : (s.setKey c b).loadReply = s.loadReply := rfl

/-! ### `State.setTone` -/

@[simp] theorem State.setTone_mem (b : Bool) : (s.setTone b).mem = s.mem := rfl
@[simp] theorem State.setTone_v (b : Bool) : (s.setTone b).v = s.v := rfl
@[simp] theorem State.setTone_i (b : Bool) : (s.setTone b).i = s.i := rfl
@[simp] theorem State.setTone_pc (b : Bool) : (s.setTone b).pc = s.pc := rfl
@[simp] theorem State.setTone_stack (b : Bool) : (s.setTone b).stack = s.stack := rfl
@[simp] theorem State.setTone_sp (b : Bool) : (s.setTone b).sp = s.sp := rfl
@[simp] theorem State.setTone_dt (b : Bool) : (s.setTone b).dt = s.dt := rfl
@[simp] theorem State.setTone_st (b : Bool) : (s.setTone b).st = s.st := rfl
@[simp] theorem State.setTone_key (b : Bool) : (s.setTone b).key = s.key := rfl
@[simp] theorem State.setTone_wait (b : Bool) : (s.setTone b).wait = s.wait := rfl
@[simp] theorem State.setTone_fb (b : Bool) : (s.setTone b).fb = s.fb := rfl
@[simp] theorem State.setTone_tone (b : Bool) : (s.setTone b).tone = b := rfl
@[simp] theorem State.setTone_fault (b : Bool) : (s.setTone b).fault = s.fault := rfl
@[simp] theorem State.setTone_draws (b : Bool) : (s.setTone b).draws = s.draws := rfl
@[simp] theorem State.setTone_events (b : Bool) : (s.setTone b).events = s.events := rfl
@[simp] theorem State.setTone_loadReply (b : Bool) : (s.setTone b).loadReply = s.loadReply := rfl

/-! ### `State.setFb` -/

@[simp] theorem State.setFb_mem (g : Grid) : (s.setFb g).mem = s.mem := rfl
@[simp] theorem State.setFb_v (g : Grid) : (s.setFb g).v = s.v := rfl
@[simp] theorem State.setFb_i (g : Grid) : (s.setFb g).i = s.i := rfl
@[simp] theorem State.setFb_pc (g : Grid) : (s.setFb g).pc = s.pc := rfl
@[simp] theorem State.setFb_stack (g : Grid) : (s.setFb g).stack = s.stack := rfl
@[simp] theorem State.setFb_sp (g : Grid) : (s.setFb g).sp = s.sp := rfl
@[simp] theorem State.setFb_dt (g : Grid) : (s.setFb g).dt = s.dt := rfl
@[simp] theorem State.setFb_st (g : Grid) : (s.setFb g).st = s.st := rfl
@[simp] theorem State.setFb_key (g : Grid) : (s.setFb g).key = s.key := rfl
@[simp] theorem State.setFb_wait (g : Grid) : (s.setFb g).wait = s.wait := rfl
@[simp] theorem State.setFb_fb (g : Grid) : (s.setFb g).fb = g := rfl
@[simp] theorem State.setFb_tone (g : Grid) : (s.setFb g).tone = s.tone := rfl
@[simp] theorem State.setFb_fault (g : Grid) : (s.setFb g).fault = s.fault := rfl
@[simp] theorem State.setFb_draws (g : Grid) : (s.setFb g).draws = s.draws := rfl
@[simp] theorem State.setFb_events (g : Grid) : (s.setFb g).events = s.events := rfl
@[simp] theorem State.setFb_loadReply (g : Grid) : (s.setFb g).loadReply = s.loadReply := rfl

/-! ### `State.writeBytes` -/

@[simp] theorem State.writeBytes_mem (a : Nat) (bs : List Byte) : (s.writeBytes a bs).mem = Memory.writeBytes s.mem a bs := rfl
@[simp] theorem State.writeBytes_v (a : Nat) (bs : List Byte) : (s.writeBytes a bs).v = s.v := rfl
@[simp] theorem State.writeBytes_i (a : Nat) (bs : List Byte) : (s.writeBytes a bs).i = s.i := rfl
@[simp] theorem State.writeBytes_pc (a : Nat) (bs : List Byte) : (s.writeBytes a bs).pc = s.pc := rfl
@[simp] theorem State.writeBytes_stack (a : Nat) (bs : List Byte) : (s.writeBytes a bs).stack = s.stack := rfl
@[simp] theorem State.writeBytes_sp (a : Nat) (bs : List Byte) : (s.writeBytes a bs).sp = s.sp := rfl
@[simp] theorem State.writeBytes_dt (a : Nat) (bs : List Byte) : (s.writeBytes a bs).dt = s.dt := rfl
@[simp] theorem State.writeBytes_st (a : Nat) (bs : List Byte) : (s.writeBytes a bs).st = s.st := rfl
@[simp] theorem State.writeBytes_key (a : Nat) (bs : List Byte) : (s.writeBytes a bs).key = s.key := rfl
@[simp] theorem State.writeBytes_wait (a : Nat) (bs : List Byte) : (s.writeBytes a bs).wait = s.wait := rfl
@[simp] theorem State.writeBytes_fb (a : Nat) (bs : List Byte) : (s.writeBytes a bs).fb = s.fb := rfl
@[simp] theorem State.writeBytes_tone (a : Nat) (bs : List Byte) : (s.writeBytes a bs).tone = s.tone := rfl
@[simp] theorem State.writeBytes_fault (a : Nat) (bs : List Byte) : (s.writeBytes a bs).fault = s.fault := rfl
@[simp] theorem State.writeBytes_draws (a : Nat) (bs : List Byte) : (s.writeBytes a bs).draws = s.draws := rfl
@[simp] theorem State.writeBytes_events (a : Nat) (bs : List Byte) : (s.writeBytes a bs).events = s.events := rfl
@[simp] theorem State.writeBytes_loadReply (a : Nat) (bs : List Byte) : (s.writeBytes a bs).loadReply = s.loadReply := rfl

/-! ### `State.latchFault` -/

@[simp] theorem State.latchFault_mem (c : FaultCause) (w : Word) (n : Nat) : (s.latchFault c w n).mem = s.mem := rfl
@[simp] theorem State.latchFault_v (c : FaultCause) (w : Word) (n : Nat) : (s.latchFault c w n).v = s.v := rfl
@[simp] theorem State.latchFault_i (c : FaultCause) (w : Word) (n : Nat) : (s.latchFault c w n).i = s.i := rfl
@[simp] theorem State.latchFault_pc (c : FaultCause) (w : Word) (n : Nat) : (s.latchFault c w n).pc = s.pc := rfl
@[simp] theorem State.latchFault_stack (c : FaultCause) (w : Word) (n : Nat) : (s.latchFault c w n).stack = s.stack := rfl
@[simp] theorem State.latchFault_sp (c : FaultCause) (w : Word) (n : Nat) : (s.latchFault c w n).sp = s.sp := rfl
@[simp] theorem State.latchFault_dt (c : FaultCause) (w : Word) (n : Nat) : (s.latchFault c w n).dt = s.dt := rfl
@[simp] theorem State.latchFault_st (c : FaultCause) (w : Word) (n : Nat) : (s.latchFault c w n).st = s.st := rfl
@[simp] theorem State.latchFault_key (c : FaultCause) (w : Word) (n : Nat) : (s.latchFault c w n).key = s.key := rfl
@[simp] theorem State.latchFault_wait (c : FaultCause) (w : Word) (n : Nat) : (s.latchFault c w n).wait = s.wait := rfl
@[simp] theorem State.latchFault_fb (c : FaultCause) (w : Word) (n : Nat) : (s.latchFault c w n).fb = s.fb := rfl
@[simp] theorem State.latchFault_tone (c : FaultCause) (w : Word) (n : Nat) : (s.latchFault c w n).tone = s.tone := rfl
@[simp] theorem State.latchFault_fault (c : FaultCause) (w : Word) (n : Nat) : (s.latchFault c w n).fault = some ⟨c, s.pc, w, BitVec.ofNat 17 n⟩ := rfl
@[simp] theorem State.latchFault_draws (c : FaultCause) (w : Word) (n : Nat) : (s.latchFault c w n).draws = s.draws := rfl
@[simp] theorem State.latchFault_events (c : FaultCause) (w : Word) (n : Nat) : (s.latchFault c w n).events = s.events := rfl
@[simp] theorem State.latchFault_loadReply (c : FaultCause) (w : Word) (n : Nat) : (s.latchFault c w n).loadReply = s.loadReply := rfl

/-! ### `State.resetEvent` -/

@[simp] theorem State.resetEvent_mem : (s.resetEvent).mem = s.mem := rfl
@[simp] theorem State.resetEvent_v : (s.resetEvent).v = Vector.replicate 16 0 := rfl
@[simp] theorem State.resetEvent_i : (s.resetEvent).i = 0 := rfl
@[simp] theorem State.resetEvent_pc : (s.resetEvent).pc = 0x200 := rfl
@[simp] theorem State.resetEvent_stack : (s.resetEvent).stack = s.stack := rfl
@[simp] theorem State.resetEvent_sp : (s.resetEvent).sp = 0 := rfl
@[simp] theorem State.resetEvent_dt : (s.resetEvent).dt = 0 := rfl
@[simp] theorem State.resetEvent_st : (s.resetEvent).st = 0 := rfl
@[simp] theorem State.resetEvent_key : (s.resetEvent).key = Vector.replicate 16 false := rfl
@[simp] theorem State.resetEvent_wait : (s.resetEvent).wait = .running := rfl
@[simp] theorem State.resetEvent_fb : (s.resetEvent).fb = Grid.blank := rfl
@[simp] theorem State.resetEvent_tone : (s.resetEvent).tone = false := rfl
@[simp] theorem State.resetEvent_fault : (s.resetEvent).fault = none := rfl
@[simp] theorem State.resetEvent_draws : (s.resetEvent).draws = s.draws := rfl
@[simp] theorem State.resetEvent_events : (s.resetEvent).events = s.events := rfl
@[simp] theorem State.resetEvent_loadReply : (s.resetEvent).loadReply = s.loadReply := rfl

/-! ### `State.skipIf` -/

@[simp] theorem State.skipIf_mem (c : Bool) : (s.skipIf c).mem = s.mem := by cases c <;> rfl
@[simp] theorem State.skipIf_v (c : Bool) : (s.skipIf c).v = s.v := by cases c <;> rfl
@[simp] theorem State.skipIf_i (c : Bool) : (s.skipIf c).i = s.i := by cases c <;> rfl
@[simp] theorem State.skipIf_pc (c : Bool) : (s.skipIf c).pc = if c then s.pc + 2 else s.pc := by
  cases c <;> rfl
@[simp] theorem State.skipIf_stack (c : Bool) : (s.skipIf c).stack = s.stack := by cases c <;> rfl
@[simp] theorem State.skipIf_sp (c : Bool) : (s.skipIf c).sp = s.sp := by cases c <;> rfl
@[simp] theorem State.skipIf_dt (c : Bool) : (s.skipIf c).dt = s.dt := by cases c <;> rfl
@[simp] theorem State.skipIf_st (c : Bool) : (s.skipIf c).st = s.st := by cases c <;> rfl
@[simp] theorem State.skipIf_key (c : Bool) : (s.skipIf c).key = s.key := by cases c <;> rfl
@[simp] theorem State.skipIf_wait (c : Bool) : (s.skipIf c).wait = s.wait := by cases c <;> rfl
@[simp] theorem State.skipIf_fb (c : Bool) : (s.skipIf c).fb = s.fb := by cases c <;> rfl
@[simp] theorem State.skipIf_tone (c : Bool) : (s.skipIf c).tone = s.tone := by cases c <;> rfl
@[simp] theorem State.skipIf_fault (c : Bool) : (s.skipIf c).fault = s.fault := by cases c <;> rfl
@[simp] theorem State.skipIf_draws (c : Bool) : (s.skipIf c).draws = s.draws := by cases c <;> rfl
@[simp] theorem State.skipIf_events (c : Bool) : (s.skipIf c).events = s.events := by cases c <;> rfl
@[simp] theorem State.skipIf_loadReply (c : Bool) : (s.skipIf c).loadReply = s.loadReply := by cases c <;> rfl

/-! ### `State.drawRandom` -/

@[simp] theorem State.drawRandom_fst : s.drawRandom.1 = Config.randomByte s.draws := rfl

@[simp] theorem State.drawRandom_mem : s.drawRandom.2.mem = s.mem := rfl
@[simp] theorem State.drawRandom_v : s.drawRandom.2.v = s.v := rfl
@[simp] theorem State.drawRandom_i : s.drawRandom.2.i = s.i := rfl
@[simp] theorem State.drawRandom_pc : s.drawRandom.2.pc = s.pc := rfl
@[simp] theorem State.drawRandom_stack : s.drawRandom.2.stack = s.stack := rfl
@[simp] theorem State.drawRandom_sp : s.drawRandom.2.sp = s.sp := rfl
@[simp] theorem State.drawRandom_dt : s.drawRandom.2.dt = s.dt := rfl
@[simp] theorem State.drawRandom_st : s.drawRandom.2.st = s.st := rfl
@[simp] theorem State.drawRandom_key : s.drawRandom.2.key = s.key := rfl
@[simp] theorem State.drawRandom_wait : s.drawRandom.2.wait = s.wait := rfl
@[simp] theorem State.drawRandom_fb : s.drawRandom.2.fb = s.fb := rfl
@[simp] theorem State.drawRandom_tone : s.drawRandom.2.tone = s.tone := rfl
@[simp] theorem State.drawRandom_fault : s.drawRandom.2.fault = s.fault := rfl
@[simp] theorem State.drawRandom_draws : s.drawRandom.2.draws = s.draws + 1 := rfl
@[simp] theorem State.drawRandom_events : s.drawRandom.2.events = s.events := rfl
@[simp] theorem State.drawRandom_loadReply : s.drawRandom.2.loadReply = s.loadReply := rfl

/-! ### Outcomes -/

@[simp] theorem Outcome.next_inj {s t : State} :
    (Host.Outcome.next s : Host.Outcome State Fault Refusal) = .next t ↔ s = t :=
  ⟨fun h => by cases h; rfl, fun h => by rw [h]⟩

@[simp] theorem State.takeFault_eq (c : FaultCause) (w : Word) (n : Nat) :
    s.takeFault c w n = .next (s.latchFault c w n) := rfl

end Sys2Proof.Machine
end

