-- ==== Sys2Proof/Laws/Memory.lean ====
section
/-! SUPPORT. What the memory operations do: every one keeps the canonical form, and a byte read after a write is
the byte written at that address and the old byte elsewhere. -/

namespace Sys2Proof.Machine

/-! ### The canonical form -/

theorem Memory.wfFrom_mono {lo lo' : Nat} (h : lo' ≤ lo) :
    ∀ {m : List Host.Cell}, Memory.wfFrom lo m = true → Memory.wfFrom lo' m = true
  | [], _ => rfl
  | (a, b) :: rest, hm => by
    simp only [Memory.wfFrom, Bool.and_eq_true, decide_eq_true_eq] at hm ⊢
    exact ⟨⟨⟨by omega, hm.1.1.2⟩, hm.1.2⟩, hm.2⟩

/-- An address below every listed one reads as an unlisted address. -/
theorem Memory.read_of_lt_wfFrom {a : Nat} :
    ∀ {lo : Nat} {m : List Host.Cell}, Memory.wfFrom lo m = true → a < lo → Memory.read m a = Memory.unlisted a
  | _, [], _, _ => rfl
  | lo, (c, d) :: rest, hm, h => by
    simp only [Memory.wfFrom, Bool.and_eq_true, decide_eq_true_eq] at hm
    have hne : a ≠ c := by omega
    simp only [Memory.read, hne, if_false]
    exact Memory.read_of_lt_wfFrom hm.2 (by omega)

theorem Memory.wfFrom_write {a : Nat} {b : Byte} (ha : a < 4096) :
    ∀ {lo : Nat} {m : List Host.Cell}, Memory.wfFrom lo m = true → lo ≤ a →
      Memory.wfFrom lo (Memory.write m a b) = true
  | lo, [], _, h => by
    unfold Memory.write
    split
    · rfl
    · simp_all [Memory.wfFrom]
  | lo, (c, d) :: rest, hm, h => by
    have hm' := hm
    simp only [Memory.wfFrom, Bool.and_eq_true, decide_eq_true_eq] at hm
    obtain ⟨⟨⟨hlo, hc⟩, hd⟩, hrest⟩ := hm
    unfold Memory.write
    split
    · split
      · exact hm'
      · simp_all [Memory.wfFrom]
    · split
      · split
        · exact Memory.wfFrom_mono (by omega) hrest
        · simp_all [Memory.wfFrom]
      · have := Memory.wfFrom_write ha (b := b) hrest (by omega : c + 1 ≤ a)
        simp_all [Memory.wfFrom]

/-- A write inside memory keeps the canonical form. -/
theorem Memory.wf_write {m : List Host.Cell} {a : Nat} {b : Byte} (hm : Memory.wf m = true) (ha : a < 4096) :
    Memory.wf (Memory.write m a b) = true :=
  Memory.wfFrom_write ha hm (Nat.zero_le a)

/-- Consecutive writes inside memory keep the canonical form. -/
theorem Memory.wf_writeBytes :
    ∀ {bs : List Byte} {m : List Host.Cell} {a : Nat}, Memory.wf m = true → a + bs.length ≤ 4096 →
      Memory.wf (Memory.writeBytes m a bs) = true
  | [], _, _, hm, _ => hm
  | b :: bs, m, a, hm, h => by
    simp only [List.length_cons] at h
    exact Memory.wf_writeBytes (bs := bs) (Memory.wf_write hm (by omega)) (by omega)

/-! ### Reading after writing -/

theorem Memory.read_write_of_wfFrom {a c : Nat} {b : Byte} :
    ∀ {lo : Nat} {m : List Host.Cell}, Memory.wfFrom lo m = true →
      Memory.read (Memory.write m a b) c = if c = a then b else Memory.read m c
  | _, [], _ => by
    unfold Memory.write
    split <;> by_cases h : c = a <;> simp_all [Memory.read]
  | lo, (d, e) :: rest, hm => by
    have hm' := hm
    simp only [Memory.wfFrom, Bool.and_eq_true, decide_eq_true_eq] at hm
    obtain ⟨-, hrest⟩ := hm
    unfold Memory.write
    split
    · rename_i hlt
      have hun : Memory.read ((d, e) :: rest) a = Memory.unlisted a :=
        Memory.read_of_lt_wfFrom (lo := d) (by simp_all [Memory.wfFrom]) hlt
      split
      · by_cases h : c = a <;> simp_all
      · by_cases h : c = a <;> simp_all [Memory.read]
    · split
      · rename_i had
        have hun : Memory.read rest a = Memory.unlisted a :=
          Memory.read_of_lt_wfFrom hrest (by omega)
        subst had
        split <;> by_cases h : c = a <;> simp_all [Memory.read]
      · have ih := Memory.read_write_of_wfFrom (a := a) (c := c) (b := b) hrest
        simp only [Memory.read, ih]
        by_cases h : c = d
        · have : c ≠ a := by omega
          simp [h]; omega
        · simp [h]

/-- A byte read after a write. -/
theorem Memory.read_write {m : List Host.Cell} {a c : Nat} {b : Byte} (hm : Memory.wf m = true) :
    Memory.read (Memory.write m a b) c = if c = a then b else Memory.read m c :=
  Memory.read_write_of_wfFrom hm

/-- A byte read after consecutive writes: the byte stored there, or the old byte outside the range. -/
theorem Memory.read_writeBytes {c : Nat} :
    ∀ {bs : List Byte} {m : List Host.Cell} {a : Nat}, Memory.wf m = true → a + bs.length ≤ 4096 →
      Memory.read (Memory.writeBytes m a bs) c =
        if a ≤ c then (bs[c - a]?).getD (Memory.read m c) else Memory.read m c
  | [], _, _, _, _ => by simp [Memory.writeBytes]
  | b :: bs, m, a, hm, h => by
    simp only [List.length_cons] at h
    have ih := Memory.read_writeBytes (c := c) (bs := bs) (a := a + 1)
      (Memory.wf_write (b := b) hm (by omega : a < 4096)) (by omega)
    rw [Memory.writeBytes, ih, Memory.read_write hm]
    rcases Nat.lt_trichotomy c a with hlt | rfl | hgt
    · have h1 : ¬ a + 1 ≤ c := by omega
      have h2 : ¬ a ≤ c := by omega
      have h3 : c ≠ a := by omega
      simp [h1, h2, h3]
    · simp
    · have h1 : a + 1 ≤ c := by omega
      have h2 : a ≤ c := by omega
      have h3 : c ≠ a := by omega
      have h4 : c - a = (c - (a + 1)) + 1 := by omega
      simp [h1, h2, h3, h4]

/-- Outside the bytes written, memory reads as before. -/
theorem Memory.read_writeBytes_outside {bs : List Byte} {m : List Host.Cell} {a c : Nat}
    (hm : Memory.wf m = true) (h : a + bs.length ≤ 4096) (hc : c < a ∨ a + bs.length ≤ c) :
    Memory.read (Memory.writeBytes m a bs) c = Memory.read m c := by
  rw [Memory.read_writeBytes hm h]
  split
  · rw [List.getElem?_eq_none (by omega)]; rfl
  · rfl

/-- Inside the bytes written, memory reads as written. -/
theorem Memory.read_writeBytes_inside {bs : List Byte} {m : List Host.Cell} {a k : Nat}
    (hm : Memory.wf m = true) (h : a + bs.length ≤ 4096) (hk : k < bs.length) :
    Memory.read (Memory.writeBytes m a bs) (a + k) = bs[k] := by
  rw [Memory.read_writeBytes hm h]
  simp [List.getElem?_eq_getElem hk]

/-! ### Reading ranges -/

@[simp] theorem Memory.length_readBytes (m : List Host.Cell) :
    ∀ a n, (Memory.readBytes m a n).length = n
  | _, 0 => rfl
  | a, n + 1 => by simp [Memory.readBytes, Memory.length_readBytes m (a + 1) n]

theorem Memory.getElem?_readBytes (m : List Host.Cell) :
    ∀ a n k, (Memory.readBytes m a n)[k]? = if k < n then some (Memory.read m (a + k)) else none
  | _, 0, _ => rfl
  | a, n + 1, 0 => by simp [Memory.readBytes]
  | a, n + 1, k + 1 => by
    simp only [Memory.readBytes, List.getElem?_cons_succ, Memory.getElem?_readBytes m (a + 1) n k,
      Nat.add_lt_add_iff_right]
    simp [Nat.add_assoc, Nat.add_comm 1 k]

/-! ### The same over states -/

@[simp] theorem State.readByte_def (s : State) (a : Nat) : Memory.read s.mem a = s.readByte a := rfl

/-- A state with the same memory reads the same bytes. -/
theorem State.readByte_congr {s t : State} (h : t.mem = s.mem) (a : Nat) : t.readByte a = s.readByte a := by
  rw [State.readByte, State.readByte, h]

end Sys2Proof.Machine
end

