-- ==== Sys2Proof/Laws/Ops.lean ====
section
/-! SUPPORT. What the operations over registers, stack and operands do, each said once. -/

namespace Sys2Proof.Machine

variable (s : State)

/-! ### Registers -/

@[simp] theorem State.readV_advance (j : RegIx) : s.advance.readV j = s.readV j := rfl

@[simp] theorem State.readByte_advance (a : Nat) : s.advance.readByte a = s.readByte a := rfl

@[simp] theorem State.readKey_advance (k : KeyCode) : s.advance.readKey k = s.readKey k := rfl

/-- A register read after a register write. -/
theorem State.readV_writeV (x j : RegIx) (b : Byte) :
    (s.writeV x b).readV j = if j = x then b else s.readV j := by
  simp only [State.readV, State.writeV, Fin.getElem_fin, Vector.getElem_set, Fin.ext_iff, eq_comm]

@[simp] theorem State.readV_writeV_self (x : RegIx) (b : Byte) : (s.writeV x b).readV x = b := by
  rw [State.readV_writeV, if_pos rfl]

theorem State.readV_writeV_of_ne {x j : RegIx} (b : Byte) (h : j ≠ x) :
    (s.writeV x b).readV j = s.readV j := by
  rw [State.readV_writeV, if_neg h]

/-- The two writes of the flag-setting instructions: the result wins over the flag. -/
theorem State.readV_writeFlagThenV (x j : RegIx) (f b : Byte) :
    (s.writeFlagThenV x f b).readV j = if j = x then b else if j = regVF then f else s.readV j := by
  rw [State.writeFlagThenV, State.readV_writeV, State.readV_writeV]

@[simp] theorem State.readV_writeFlagThenV_self (x : RegIx) (f b : Byte) :
    (s.writeFlagThenV x f b).readV x = b := by
  rw [State.readV_writeFlagThenV, if_pos rfl]

/-- A state with the same registers reads the same registers. -/
theorem State.readV_congr {s t : State} (h : t.v = s.v) (j : RegIx) : t.readV j = s.readV j := by
  rw [State.readV, State.readV, h]

/-- A register after a block load. -/
theorem Registers.getElem_load {j : Nat} (hj : j < 16) :
    ∀ (bs : List Byte) (v : Vector Byte 16) (k : Nat),
      (Registers.load v k bs)[j] = if k ≤ j then (bs[j - k]?).getD v[j] else v[j]
  | [], v, k => by simp [Registers.load]
  | b :: bs, v, k => by
    rw [Registers.load, Registers.getElem_load hj bs]
    simp only [Vector.getElem_setIfInBounds hj]
    rcases Nat.lt_trichotomy j k with h | rfl | h
    · have h1 : ¬ k + 1 ≤ j := by omega
      have h2 : ¬ k ≤ j := by omega
      have h3 : k ≠ j := by omega
      simp [h1, h2, h3]
    · simp
    · have h1 : k + 1 ≤ j := by omega
      have h2 : k ≤ j := by omega
      have h3 : k ≠ j := by omega
      have h4 : j - k = (j - (k + 1)) + 1 := by omega
      simp [h1, h2, h3, h4]

theorem State.readV_loadRegs (bs : List Byte) (j : RegIx) :
    (s.loadRegs bs).readV j = (bs[j.val]?).getD (s.readV j) := by
  simp only [State.readV, State.loadRegs, Fin.getElem_fin, Registers.getElem_load j.isLt]
  simp

@[simp] theorem State.length_firstRegs (n : Nat) (h : n ≤ 16) : (s.firstRegs n).length = n := by
  simp [State.firstRegs, h]

theorem State.getElem_firstRegs {n k : Nat} (hk : k < (s.firstRegs n).length) (h16 : k < 16) :
    (s.firstRegs n)[k] = s.readV ⟨k, h16⟩ := by
  simp [State.firstRegs, State.readV]

/-! ### Stack -/

/-- Push succeeds below capacity: it writes the next free entry and counts it. -/
theorem State.push?_of_lt (w : Word) (h : s.sp.val < 16) :
    s.push? w = some { s with stack := s.stack.set s.sp.val w, sp := ⟨s.sp.val + 1, by omega⟩ } := by
  rw [State.push?, dif_pos h]

theorem State.push?_eq_none (w : Word) : s.push? w = none ↔ s.sp.val = 16 := by
  have := s.sp.isLt
  unfold State.push?
  split <;> simp <;> omega

/-- Pop succeeds on a stack in use: it yields the top entry, left in place. -/
theorem State.pop?_of_pos (h : 0 < s.sp.val) :
    s.pop? = some (s.stack[s.sp.val - 1], { s with sp := ⟨s.sp.val - 1, by omega⟩ }) := by
  rw [State.pop?, dif_pos h]

theorem State.pop?_eq_none : s.pop? = none ↔ s.sp.val = 0 := by
  unfold State.pop?
  split <;> simp <;> omega

/-! ### Operands and flags -/

@[simp] theorem toNat_addrWord (nnn : Addr12) : (addrWord nnn).toNat = nnn.toNat := by
  simp [addrWord]; omega

@[simp] theorem toNat_byteWord (b : Byte) : (byteWord b).toNat = b.toNat := by
  simp [byteWord]; omega

@[simp] theorem toNat_glyphAddr (b : Byte) : (glyphAddr b).toNat = b.toNat * 5 := by
  have := b.isLt
  simp [glyphAddr, BitVec.toNat_mul]; omega

@[simp] theorem State.effAddr_zero : s.effAddr 0 = s.i.toNat := rfl

theorem rangeFits_iff (base count : Nat) :
    rangeFits base count = true ↔ count = 0 ∨ base + count ≤ 4096 := by
  simp [rangeFits]

theorem rangeFits_eq_false (base count : Nat) :
    rangeFits base count = false ↔ 0 < count ∧ 4096 < base + count := by
  simp [rangeFits, Nat.pos_iff_ne_zero]

theorem keyIndex?_of_lt {b : Byte} (h : b.toNat < 16) : keyIndex? b = some ⟨b.toNat, h⟩ := by
  rw [keyIndex?, dif_pos h]

theorem keyIndex?_eq_none (b : Byte) : keyIndex? b = none ↔ 15 < b.toNat := by
  unfold keyIndex?
  split <;> simp <;> omega

@[simp] theorem length_bcdDigits (b : Byte) : (bcdDigits b).length = 3 := rfl

@[simp] theorem flagByte_true : flagByte true = 1 := rfl

@[simp] theorem flagByte_false : flagByte false = 0 := rfl

/-- The only values a flag write leaves in VF (10_state.md R23). -/
theorem flagByte_eq (b : Bool) : flagByte b = if b then 1 else 0 := rfl

end Sys2Proof.Machine
end

