-- ==== Sys2Proof/Laws/Display.lean ====
section
/-! SUPPORT. What the blit does: each pixel is XORed with the sprite bit that covers it, and an erasure is
noted exactly when a bit 1 meets a set pixel (44_display.md R187, R188). -/

namespace Sys2Proof.Machine

/-! ### One pixel -/

theorem Grid.pixel_setPixel (fb : Grid) (px qx : Fin 64) (py qy : Fin 32) (b : Bool) :
    (fb.setPixel px py b).pixel qx qy = if qx = px ∧ qy = py then b else fb.pixel qx qy := by
  simp only [Grid.pixel, Grid.setPixel, Fin.getElem_fin, Vector.getElem_set]
  by_cases hy : qy = py
  · subst hy
    by_cases hx : qx = px
    · subst hx; simp
    · have : px.val ≠ qx.val := fun h => hx (Fin.ext h.symm)
      simp [hx, this]
  · have : py.val ≠ qy.val := fun h => hy (Fin.ext h.symm)
    simp [hy, this]

theorem Grid.ext_pixel {fb gb : Grid} (h : ∀ px py, fb.pixel px py = gb.pixel px py) : fb = gb := by
  apply Vector.ext
  intro y hy
  apply Vector.ext
  intro x hx
  exact h ⟨x, hx⟩ ⟨y, hy⟩

@[simp] theorem Grid.pixel_blank (px : Fin 64) (py : Fin 32) : Grid.blank.pixel px py = false := by
  simp [Grid.pixel, Grid.blank]

/-! ### A list of toggles, none of them twice -/

/-- Toggle one pixel when the bit is 1, noting an erasure: what `blitBit` does to its target. -/
def toggle (t : (Fin 64 × Fin 32) × Bool) (p : Blit) : Blit :=
  (p.1.setPixel t.1.1 t.1.2 (xor (p.1.pixel t.1.1 t.1.2) t.2), p.2 || (t.2 && p.1.pixel t.1.1 t.1.2))

/-- The targets and bits of one sprite row, in the order the blit visits them. -/
def rowToggles (xs ys : Byte) (r : Nat) (row : Byte) : List ((Fin 64 × Fin 32) × Bool) :=
  [0, 1, 2, 3, 4, 5, 6, 7].map fun c => ((blitColumn xs c, blitLine ys r), spriteBit row c)

/-- The targets and bits of the rows from number `r` on, in the order the blit visits them. -/
def rowsToggles (xs ys : Byte) : Nat → List Byte → List ((Fin 64 × Fin 32) × Bool)
  | _, [] => []
  | r, row :: rows => rowToggles xs ys r row ++ rowsToggles xs ys (r + 1) rows

theorem blitRows_eq_toggles (xs ys : Byte) :
    ∀ (rows : List Byte) (r : Nat) (p : Blit),
      blitRows xs ys r rows p = (rowsToggles xs ys r rows).foldl (fun q t => toggle t q) p
  | [], _, _ => rfl
  | row :: rows, r, p => by
    rw [blitRows, blitRows_eq_toggles xs ys rows (r + 1), rowsToggles, List.foldl_append]
    rfl

theorem pixel_foldl_toggle (qx : Fin 64) (qy : Fin 32) :
    ∀ (l : List ((Fin 64 × Fin 32) × Bool)) (p : Blit), (l.map Prod.fst).Nodup →
      (l.foldl (fun q t => toggle t q) p).1.pixel qx qy =
        xor (p.1.pixel qx qy) (decide (((qx, qy), true) ∈ l))
  | [], p, _ => by simp
  | (k, b) :: l, p, hn => by
    simp only [List.map_cons, List.nodup_cons] at hn
    rw [List.foldl_cons, pixel_foldl_toggle qx qy l _ hn.2]
    simp only [toggle, Grid.pixel_setPixel]
    by_cases hk : (qx, qy) = k
    · subst hk
      have hnot : ((qx, qy), true) ∉ l := fun h => hn.1 (List.mem_map_of_mem h)
      cases b <;> simp [hnot]
    · have hk' : ¬ (qx = k.1 ∧ qy = k.2) := fun h => hk (Prod.ext h.1 h.2)
      have hne : ((qx, qy), true) ≠ (k, b) := fun h => hk (congrArg Prod.fst h)
      simp [hk', hne]

theorem erased_foldl_toggle :
    ∀ (l : List ((Fin 64 × Fin 32) × Bool)) (p : Blit), (l.map Prod.fst).Nodup →
      ((l.foldl (fun q t => toggle t q) p).2 = true ↔
        p.2 = true ∨ ∃ k, (k, true) ∈ l ∧ p.1.pixel k.1 k.2 = true)
  | [], p, _ => by simp
  | (k, b) :: l, p, hn => by
    simp only [List.map_cons, List.nodup_cons] at hn
    rw [List.foldl_cons, erased_foldl_toggle l _ hn.2]
    have hpix : ∀ q, (q, true) ∈ l → (toggle (k, b) p).1.pixel q.1 q.2 = p.1.pixel q.1 q.2 := by
      intro q hq
      have hne : ¬ (q.1 = k.1 ∧ q.2 = k.2) := fun h =>
        hn.1 (List.mem_map.2 ⟨(q, true), hq, Prod.ext h.1 h.2⟩)
      simp [toggle, Grid.pixel_setPixel, hne]
    constructor
    · rintro (h | ⟨q, hq, hp⟩)
      · simp only [toggle, Bool.or_eq_true, Bool.and_eq_true] at h
        rcases h with h | ⟨hb, hp⟩
        · exact .inl h
        · exact .inr ⟨k, by simp [hb], hp⟩
      · exact .inr ⟨q, List.mem_cons_of_mem _ hq, by rw [← hpix q hq]; exact hp⟩
    · rintro (h | ⟨q, hq, hp⟩)
      · exact .inl (by simp [toggle, h])
      · rcases List.mem_cons.1 hq with h | h
        · injection h with h1 h2
          subst h1
          exact .inl (by simp [toggle, ← h2, hp])
        · exact .inr ⟨q, h, by rw [hpix q h]; exact hp⟩

/-! ### The targets of one blit differ -/

theorem mem_rowsToggles (xs ys : Byte) (k : Fin 64 × Fin 32) (b : Bool) :
    ∀ (rows : List Byte) (r : Nat), (k, b) ∈ rowsToggles xs ys r rows ↔
      ∃ j row, rows[j]? = some row ∧ ∃ c < 8, k = (blitColumn xs c, blitLine ys (r + j)) ∧ b = spriteBit row c
  | [], _ => by simp [rowsToggles]
  | row :: rows, r => by
    rw [rowsToggles, List.mem_append, mem_rowsToggles xs ys k b rows (r + 1)]
    constructor
    · rintro (h | ⟨j, w, hj, c, hc, hk, hb⟩)
      · obtain ⟨c, hc, h⟩ := List.mem_map.1 h
        injection h with h1 h2
        exact ⟨0, row, rfl, c, by simp at hc; omega, h1.symm, h2.symm⟩
      · exact ⟨j + 1, w, hj, c, hc, by rw [hk]; congr 2; omega, hb⟩
    · rintro ⟨j, w, hj, c, hc, hk, hb⟩
      cases j with
      | zero =>
        left
        simp only [List.getElem?_cons_zero, Option.some.injEq] at hj
        subst hj
        exact List.mem_map.2 ⟨c, by simp; omega, by rw [hk, hb]; rfl⟩
      | succ j =>
        right
        exact ⟨j, w, by simpa using hj, c, hc, by rw [hk]; congr 2; omega, hb⟩

theorem nodup_rowToggles (xs ys : Byte) (r : Nat) (row : Byte) :
    ((rowToggles xs ys r row).map Prod.fst).Nodup := by
  simp only [rowToggles, List.map_map]
  refine List.Nodup.map_on ?_ (by decide)
  intro c hc d hd h
  have h1 : (blitColumn xs c).val = (blitColumn xs d).val := congrArg (fun q => q.1.val) h
  simp only [blitColumn, Fin.val_ofNat] at h1
  simp at hc hd
  omega

theorem nodup_rowsToggles (xs ys : Byte) :
    ∀ (rows : List Byte) (r : Nat), rows.length ≤ 32 →
      ((rowsToggles xs ys r rows).map Prod.fst).Nodup
  | [], _, _ => by simp [rowsToggles]
  | row :: rows, r, h => by
    simp only [List.length_cons] at h
    rw [rowsToggles, List.map_append, List.nodup_append]
    refine ⟨nodup_rowToggles xs ys r row, nodup_rowsToggles xs ys rows (r + 1) (by omega), ?_⟩
    intro a ha b hb hab
    obtain ⟨⟨k, b1⟩, hk, rfl⟩ := List.mem_map.1 ha
    obtain ⟨⟨k', b2⟩, hk', rfl⟩ := List.mem_map.1 hb
    obtain ⟨c, -, hc⟩ := List.mem_map.1 hk
    obtain ⟨j, w, hj, d, -, hd, -⟩ := (mem_rowsToggles xs ys k' b2 rows (r + 1)).1 hk'
    have hjlt : j < rows.length := (List.getElem?_eq_some_iff.1 hj).1
    injection hc with hc1 hc2
    have h1 : (blitLine ys r).val = (blitLine ys (r + 1 + j)).val := by
      have := congrArg (fun q => q.2.val) (hc1.trans (hab.trans hd))
      exact this
    simp only [blitLine, Fin.val_ofNat] at h1
    omega

/-! ### The blit -/

/-- A sprite bit 1 lands on the pixel, in the model's own terms. -/
theorem rowsCover_iff (rows : List Byte) (xs ys : Byte) (px : Fin 64) (py : Fin 32) :
    RowsCover rows xs ys px py ↔ ((px, py), true) ∈ rowsToggles xs ys 0 rows := by
  rw [mem_rowsToggles]
  simp only [RowsCover, Prod.mk.injEq, Fin.ext_iff, blitColumn, blitLine, Fin.val_ofNat, spriteBit, Nat.zero_add]
  constructor
  · rintro ⟨r, row, h, c, hc, h1, h2, h3⟩; exact ⟨r, row, h, c, hc, ⟨h1, h2⟩, h3.symm⟩
  · rintro ⟨r, row, h, c, hc, ⟨h1, h2⟩, h3⟩; exact ⟨r, row, h, c, hc, h1, h2, h3.symm⟩

/-- Each pixel after the blit. -/
theorem pixel_draw {rows : List Byte} (h : rows.length ≤ 32) (xs ys : Byte) (fb : Grid) (px : Fin 64)
    (py : Fin 32) :
    (draw rows xs ys fb).1.pixel px py = true ↔
      (fb.pixel px py = true ∧ ¬ RowsCover rows xs ys px py) ∨
        (fb.pixel px py = false ∧ RowsCover rows xs ys px py) := by
  rw [draw, blitRows_eq_toggles, pixel_foldl_toggle px py _ _ (nodup_rowsToggles xs ys rows 0 h),
    rowsCover_iff]
  by_cases hm : ((px, py), true) ∈ rowsToggles xs ys 0 rows <;> cases hp : fb.pixel px py <;> simp [hm]

/-- The `erased` bit after the blit. -/
theorem erased_draw {rows : List Byte} (h : rows.length ≤ 32) (xs ys : Byte) (fb : Grid) :
    (draw rows xs ys fb).2 = true ↔ ∃ px py, RowsCover rows xs ys px py ∧ fb.pixel px py = true := by
  rw [draw, blitRows_eq_toggles, erased_foldl_toggle _ _ (nodup_rowsToggles xs ys rows 0 h)]
  simp only [rowsCover_iff, Bool.false_eq_true, false_or, Prod.exists]

/-- The rows DRW reads cover what `SpriteCovers` says. -/
theorem rowsCover_readBytes (s : State) (xs ys : Byte) (n : Nat) (px : Fin 64) (py : Fin 32) :
    RowsCover (s.readBytes s.i.toNat n) xs ys px py ↔ SpriteCovers s xs ys n px py := by
  simp only [RowsCover, SpriteCovers, State.readBytes, Memory.getElem?_readBytes]
  constructor
  · rintro ⟨r, row, h, c, hc, h1, h2, h3⟩
    split at h
    · rename_i hr
      simp only [Option.some.injEq] at h
      subst h
      exact ⟨r, hr, c, hc, h1, h2, h3⟩
    · cases h
  · rintro ⟨r, hr, c, hc, h1, h2, h3⟩
    exact ⟨r, _, by rw [if_pos hr]; rfl, c, hc, h1, h2, h3⟩

end Sys2Proof.Machine
end

