-- ==== Sys2Proof/Laws/Exec.lean ====
section
/-! SUPPORT. What the meanings with a fault condition answer in either case, and what one step can do, said
once so that no proof unfolds them. -/

namespace Sys2Proof.Machine

variable (s : State)

/-! ### The meanings that can fault -/

theorem exec_call_of_lt (nnn : Addr12) (h : s.sp.val < 16) :
    exec (.call nnn) s = .next { s with
      stack := s.stack.set s.sp.val (s.pc + 2), sp := ⟨s.sp.val + 1, by omega⟩, pc := addrWord nnn } := by
  simp only [exec, execCall, State.push?_of_lt s.advance s.advance.pc h]
  rfl

theorem exec_call_of_full (nnn : Addr12) (h : s.sp.val = 16) :
    exec (.call nnn) s = .next (s.latchFault .stackOverflow (encode (.call nnn)) 16) := by
  simp only [exec, execCall, (State.push?_eq_none s.advance s.advance.pc).2 h]
  rfl

theorem exec_ret_of_pos (h : 0 < s.sp.val) :
    exec .ret s = .next { s with pc := s.stack[s.sp.val - 1], sp := ⟨s.sp.val - 1, by omega⟩ } := by
  simp only [exec, execRet, State.pop?_of_pos s.advance h]
  rfl

theorem exec_ret_of_empty (h : s.sp.val = 0) :
    exec .ret s = .next (s.latchFault .stackUnderflow (encode .ret) 0) := by
  simp only [exec, execRet, (State.pop?_eq_none s.advance).2 h]
  rfl

theorem exec_ldB_of_fits (x : RegIx) (h : s.i.toNat + 2 ≤ 4095) :
    exec (.ldB x) s = .next (s.advance.writeBytes s.i.toNat (bcdDigits (s.readV x))) := by
  simp only [exec, execLdB]
  rw [if_pos ((rangeFits_iff _ _).2 (.inr (by simp; omega)))]
  rfl

theorem exec_ldB_of_out (x : RegIx) (h : 4095 < s.i.toNat + 2) :
    exec (.ldB x) s = .next (s.latchFault .writeOutOfBounds (encode (.ldB x)) (max s.i.toNat 4096)) := by
  simp only [exec, execLdB]
  rw [if_neg (by rw [rangeFits_iff]; simp; omega)]
  rfl

theorem exec_ldMemVx_of_fits (x : RegIx) (h : s.i.toNat + x.val ≤ 4095) :
    exec (.ldMemVx x) s = .next (s.advance.writeBytes s.i.toNat (s.firstRegs (x.val + 1))) := by
  simp only [exec, execLdMemVx]
  rw [if_pos ((rangeFits_iff _ _).2 (.inr (by simp [blockCount]; omega)))]
  rfl

theorem exec_ldMemVx_of_out (x : RegIx) (h : 4095 < s.i.toNat + x.val) :
    exec (.ldMemVx x) s =
      .next (s.latchFault .writeOutOfBounds (encode (.ldMemVx x)) (max s.i.toNat 4096)) := by
  simp only [exec, execLdMemVx]
  rw [if_neg (by rw [rangeFits_iff]; simp [blockCount]; omega)]
  rfl

theorem exec_ldVxMem_of_fits (x : RegIx) (h : s.i.toNat + x.val ≤ 4095) :
    exec (.ldVxMem x) s = .next (s.advance.loadRegs (s.readBytes s.i.toNat (x.val + 1))) := by
  simp only [exec, execLdVxMem]
  rw [if_pos ((rangeFits_iff _ _).2 (.inr (by simp [blockCount]; omega)))]
  rfl

theorem exec_ldVxMem_of_out (x : RegIx) (h : 4095 < s.i.toNat + x.val) :
    exec (.ldVxMem x) s =
      .next (s.latchFault .readOutOfBounds (encode (.ldVxMem x)) (max s.i.toNat 4096)) := by
  simp only [exec, execLdVxMem]
  rw [if_neg (by rw [rangeFits_iff]; simp [blockCount]; omega)]
  rfl

theorem exec_drw_of_fits (x y : RegIx) (n : Nibble) (h : n.val = 0 ∨ s.i.toNat + n.val - 1 ≤ 4095) :
    exec (.drw x y n) s =
      .next ((s.advance.setFb (draw (s.readBytes s.i.toNat n.val) (s.readV x) (s.readV y) s.fb).1).writeV regVF
        (collisionFlag (draw (s.readBytes s.i.toNat n.val) (s.readV x) (s.readV y) s.fb).2)) := by
  simp only [exec, execDrw]
  rw [if_pos ((rangeFits_iff _ _).2 (by simp; omega))]
  rfl

theorem exec_drw_of_out (x y : RegIx) (n : Nibble) (h1 : 1 ≤ n.val) (h : 4095 < s.i.toNat + n.val - 1) :
    exec (.drw x y n) s =
      .next (s.latchFault .readOutOfBounds (encode (.drw x y n)) (max s.i.toNat 4096)) := by
  simp only [exec, execDrw]
  rw [if_neg (by rw [rangeFits_iff]; simp; omega)]
  rfl

theorem exec_skp_of_key (x : RegIx) (k : KeyCode) (h : (s.readV x).toNat = k.val) :
    exec (.skp x) s = .next (s.advance.skipIf (s.readKey k)) := by
  have hk : keyIndex? (s.readV x) = some k := by
    rw [keyIndex?_of_lt (by omega : (s.readV x).toNat < 16)]
    exact congrArg some (Fin.ext h)
  simp only [exec, execSkp, hk]

theorem exec_sknp_of_key (x : RegIx) (k : KeyCode) (h : (s.readV x).toNat = k.val) :
    exec (.sknp x) s = .next (s.advance.skipIf (!s.readKey k)) := by
  have hk : keyIndex? (s.readV x) = some k := by
    rw [keyIndex?_of_lt (by omega : (s.readV x).toNat < 16)]
    exact congrArg some (Fin.ext h)
  simp only [exec, execSknp, hk]

theorem exec_skp_of_out (x : RegIx) (h : 15 < (s.readV x).toNat) :
    exec (.skp x) s = .next (s.latchFault .keyIndexOutOfRange (encode (.skp x)) (s.readV x).toNat) := by
  simp only [exec, execSkp, (keyIndex?_eq_none _).2 h]
  rfl

theorem exec_sknp_of_out (x : RegIx) (h : 15 < (s.readV x).toNat) :
    exec (.sknp x) s = .next (s.latchFault .keyIndexOutOfRange (encode (.sknp x)) (s.readV x).toNat) := by
  simp only [exec, execSknp, (keyIndex?_eq_none _).2 h]
  rfl

/-! ### One step -/

theorem State.canExecute_iff : s.canExecute = true ↔ s.fault = none ∧ s.wait = .running := by
  simp [State.canExecute]

theorem State.fetch?_of_le (h : s.pc.toNat ≤ 4094) :
    s.fetch? = some (joinBytes (s.readByte s.pc.toNat) (s.readByte (s.pc.toNat + 1))) := by
  rw [State.fetch?, if_pos h]

theorem State.fetch?_eq_none : s.fetch? = none ↔ 4094 < s.pc.toNat := by
  unfold State.fetch?
  split <;> simp <;> omega

theorem State.instrStep_gated (h : s.canExecute = false) : s.instrStep = .next s := by
  simp [State.instrStep, h]

theorem State.instrStep_fetched {w : Word} (h : s.canExecute = true) (hf : s.fetch? = some w) :
    s.instrStep = exec (decodeWord w) s := by
  simp [State.instrStep, h, hf]

theorem State.instrStep_unfetched (h : s.canExecute = true) (hf : s.fetch? = none) :
    s.instrStep = .next (s.latchFault .fetchOutOfBounds 0 s.pc.toNat) := by
  simp [State.instrStep, h, hf]

/-- All that a step of one instruction can do. -/
theorem State.instrStep_cases {t : State} (h : s.instrStep = .next t) :
    (s.canExecute = false ∧ t = s) ∨
    (s.canExecute = true ∧ 4094 < s.pc.toNat ∧ t = s.latchFault .fetchOutOfBounds 0 s.pc.toNat) ∨
    (s.canExecute = true ∧ s.pc.toNat ≤ 4094 ∧ ∃ w, s.fetch? = some w ∧ exec (decodeWord w) s = .next t) := by
  cases hc : s.canExecute with
  | false =>
    rw [s.instrStep_gated hc, Outcome.next_inj] at h
    exact .inl ⟨rfl, h.symm⟩
  | true =>
    cases hf : s.fetch? with
    | none =>
      rw [s.instrStep_unfetched hc hf, Outcome.next_inj] at h
      exact .inr (.inl ⟨rfl, (State.fetch?_eq_none s).1 hf, h.symm⟩)
    | some w =>
      rw [s.instrStep_fetched hc hf] at h
      have hpc : s.pc.toNat ≤ 4094 := by
        by_contra hn
        rw [(State.fetch?_eq_none s).2 (by omega)] at hf
        cases hf
      exact .inr (.inr ⟨rfl, hpc, w, rfl, h⟩)

/-! ### One step of the machine -/

theorem step_unscheduled (h : s.events = []) : step s = s.instrStep := by
  simp [step, State.nextEvent, h]

theorem step_scheduled {e : Event} {rest : List Event} (h : s.events = e :: rest) :
    step s = { s with events := rest }.handle e := by
  simp [step, State.nextEvent, h]

end Sys2Proof.Machine
end

