-- ==== Sys2Proof/Laws/Events.lean ====
section
/-! SUPPORT. What the events of the host do, and the frames of the shared register operations, each said once. -/

namespace Sys2Proof.Machine

variable (s : State)

/-! ### Frames of the shared operations -/

/-- A step that falls through and writes one register. -/
theorem regFrame_writeV (x : RegIx) (b : Byte) : RegFrame (· = x) s (s.advance.writeV x b) :=
  ⟨fun _ h => State.readV_writeV_of_ne _ b h, fun _ => rfl, rfl, rfl⟩

/-- A step that falls through and writes a flag and a register. -/
theorem regFrame_writeFlagThenV (x : RegIx) (f b : Byte) :
    RegFrame (fun j => j = x ∨ j = 0xF) s (s.advance.writeFlagThenV x f b) := by
  refine ⟨fun j h => ?_, fun _ => rfl, rfl, rfl⟩
  rw [not_or] at h
  rw [State.readV_writeFlagThenV, if_neg h.1, if_neg h.2, State.readV_advance]

/-- The flag stands in VF when VF is not the destination. -/
theorem State.readVF_writeFlagThenV {x : RegIx} (f b : Byte) (h : x ≠ 0xF) :
    (s.writeFlagThenV x f b).readV 0xF = f := by
  rw [State.readV_writeFlagThenV, if_neg h.symm, if_pos rfl]

/-- Where a conditional skip goes. -/
theorem State.pc_advance_skipIf (c : Bool) :
    (s.advance.skipIf c).pc = s.pc + (if c = true then 4 else 2) := by
  cases c
  · rfl
  · exact BitVec.add_assoc s.pc 2 2

/-- A conditional skip writes `PC` and nothing else. -/
theorem pcFrame_skipIf (c : Bool) : PcFrame s (s.advance.skipIf c) := by
  cases c <;> exact ⟨fun _ => rfl, rfl⟩

/-! ### Keys -/

theorem State.readKey_setKey (code k : KeyCode) (p : Bool) :
    (s.setKey code p).readKey k = if k = code then p else s.readKey k := by
  simp [State.readKey, State.setKey, Vector.getElem_set, Fin.ext_iff, eq_comm]

@[simp] theorem State.endWait_key (code : KeyCode) (p : Bool) : (s.endWait code p).key = s.key := by
  unfold State.endWait
  split <;> rfl

theorem State.endWait_press {x : RegIx} (code : KeyCode) (h : s.wait = .awaitingKey x) :
    s.endWait code true = (s.writeV x (BitVec.ofNat 8 code.val)).setWait .running := by
  simp only [State.endWait, h]

/-- A release, or a press while no key is awaited, leaves the gate and the registers alone. -/
theorem State.endWait_other (code : KeyCode) (p : Bool) (h : p = false ∨ s.wait = .running) :
    s.endWait code p = s := by
  cases p
  · rfl
  · simp only [State.endWait, h.resolve_left Bool.true_eq_false.mp]

theorem State.keyEvent_faulted (code : KeyCode) (p : Bool) (h : s.fault ≠ none) : s.keyEvent code p = s := by
  rw [State.keyEvent, if_pos (Option.isSome_iff_ne_none.2 h)]

theorem State.keyEvent_repeat (code : KeyCode) (p : Bool) (h : s.readKey code = p) : s.keyEvent code p = s := by
  unfold State.keyEvent
  rw [if_pos h, ite_self]

theorem State.keyEvent_transition (code : KeyCode) (p : Bool) (hf : s.fault = none) (h : s.readKey code ≠ p) :
    s.keyEvent code p = (s.setKey code p).endWait code p := by
  rw [State.keyEvent, if_neg (by simp [hf]), if_neg h]

/-! ### Load -/

theorem State.load_of_fits {bytes : List Byte} (h : bytes.length ≤ 3584) :
    s.load bytes = { s.writeBytes 0x200 bytes with loadReply := some .ok } :=
  if_pos h

theorem State.load_of_long {bytes : List Byte} (h : 3584 < bytes.length) :
    s.load bytes = { s with loadReply := some .loadOutOfBounds } :=
  if_neg (Nat.not_le.2 h)

/-! ### Ticks -/

theorem State.tick_faulted {speed : Nat} (hs : speed ≠ 0) (h : s.fault ≠ none) : s.tick speed = .next s := by
  rw [State.tick, if_neg hs, if_pos (Option.isSome_iff_ne_none.2 h)]

theorem State.tick_paused {speed : Nat} (hs : speed ≠ 0) (hf : s.fault = none) (h : s.wait ≠ .running) :
    s.tick speed = .next (s.setTone false) := by
  rw [State.tick, if_neg hs, if_neg (by simp [hf]), if_neg h]

theorem State.tick_running {speed : Nat} (hs : speed ≠ 0) (hf : s.fault = none) (h : s.wait = .running) :
    s.tick speed = runSteps speed s.tickDelay.tickSound := by
  rw [State.tick, if_neg hs, if_neg (by simp [hf]), if_pos h]

theorem toNat_pred_of_ne_zero {b : Byte} (h : b ≠ 0) : (b - 1).toNat = b.toNat - 1 ∧ 0 < b.toNat := by
  have h0 : b.toNat ≠ 0 := fun e => h (BitVec.eq_of_toNat_eq e)
  have := b.isLt
  simp [BitVec.toNat_sub]
  omega

/-- The delay timer goes down by one and never below 0. -/
theorem State.tickDelay_spec :
    s.tickDelay.dt.toNat = s.dt.toNat - 1 ∧ s.tickDelay = { s with dt := s.tickDelay.dt } := by
  unfold State.tickDelay
  split
  · next h => exact ⟨by rw [h]; rfl, rfl⟩
  · next h => exact ⟨(toNat_pred_of_ne_zero h).1, rfl⟩

/-- The sound timer goes down by one and never below 0; the gate is open exactly when it was not 0. -/
theorem State.tickSound_spec :
    s.tickSound.st.toNat = s.st.toNat - 1 ∧ (s.tickSound.tone = true ↔ 0 < s.st.toNat) ∧
      s.tickSound = { s with st := s.tickSound.st, tone := s.tickSound.tone } := by
  unfold State.tickSound
  split
  · next h => exact ⟨by show s.st.toNat = _; rw [h]; rfl, by rw [h]; simp, rfl⟩
  · next h => exact ⟨(toNat_pred_of_ne_zero h).1, ⟨fun _ => (toNat_pred_of_ne_zero h).2, fun _ => rfl⟩, rfl⟩

/-- The timers of a tick: what they become, and that nothing else changes. -/
theorem State.tickTimers_spec :
    s.tickDelay.tickSound.dt.toNat = s.dt.toNat - 1 ∧ s.tickDelay.tickSound.st.toNat = s.st.toNat - 1 ∧
      (s.tickDelay.tickSound.tone = true ↔ 0 < s.st.toNat) ∧
      s.tickDelay.tickSound = { s with
        dt := s.tickDelay.tickSound.dt, st := s.tickDelay.tickSound.st, tone := s.tickDelay.tickSound.tone } := by
  obtain ⟨hd, hs⟩ := s.tickDelay_spec
  obtain ⟨h1, h2, h3⟩ := s.tickDelay.tickSound_spec
  have est : s.tickDelay.st = s.st := by rw [hs]
  rw [est] at h1 h2
  have edt : s.tickDelay.tickSound.dt = s.tickDelay.dt := by rw [h3]
  refine ⟨by rw [edt]; exact hd, h1, h2, ?_⟩
  rw [edt]
  exact h3.trans (by rw [hs])

/-- What an ended run is: the CORE can execute, and the word at `PC` is JP to that same address. -/
theorem State.ended_iff : s.ended = true ↔
    s.canExecute = true ∧ ∃ w, s.fetch? = some w ∧ decodeWord w = .jp (s.pc.setWidth 12) := by
  rw [State.ended, Bool.and_eq_true, State.atSelfJump]
  cases s.fetch? <;> simp

/-- A jump to itself changes nothing. -/
theorem State.instrStep_ended (h : s.ended = true) : s.instrStep = .next s := by
  obtain ⟨hc, w, hf, hw⟩ := s.ended_iff.1 h
  have hpc : s.pc.toNat ≤ 4094 := by
    by_contra hn
    rw [s.fetch?_eq_none.2 (by omega)] at hf
    cases hf
  have e : addrWord (s.pc.setWidth 12) = s.pc := by
    apply BitVec.eq_of_toNat_eq
    rw [toNat_addrWord, BitVec.toNat_setWidth]
    omega
  rw [s.instrStep_fetched hc hf, hw]
  exact congrArg (fun p => Host.Outcome.next { s with pc := p }) e

/-- The step loop of a tick leaves an ended run where it is. -/
theorem runSteps_ended (h : s.ended = true) : ∀ n, runSteps n s = .next s
  | 0 => rfl
  | n + 1 => by
    rw [runSteps, s.instrStep_ended h]
    show (if s.canExecute then runSteps n s else .next s) = .next s
    rw [if_pos (s.ended_iff.1 h).1]
    exact runSteps_ended h n

/-- A gated machine stays where it is, however many steps are asked for. -/
theorem stepsInARow_gated (h : s.canExecute = false) : ∀ n, stepsInARow n s = .next s
  | 0 => rfl
  | n + 1 => by
    rw [stepsInARow, State.instrStep_gated s h]
    exact stepsInARow_gated h n

/-! ### Completion -/

/-- Every instruction answers a next state, its fault's latch included. -/
theorem exec_completes (i : Instr) (s : State) : ∃ t, exec i s = .next t := by
  cases i
  case call nnn =>
    by_cases hc : s.sp.val = 16
    · exact ⟨_, exec_call_of_full s nnn hc⟩
    · exact ⟨_, exec_call_of_lt s nnn (by omega)⟩
  case ret =>
    by_cases hc : s.sp.val = 0
    · exact ⟨_, exec_ret_of_empty s hc⟩
    · exact ⟨_, exec_ret_of_pos s (by omega)⟩
  case ldB x =>
    by_cases hc : s.i.toNat + 2 ≤ 4095
    · exact ⟨_, exec_ldB_of_fits s x hc⟩
    · exact ⟨_, exec_ldB_of_out s x (by omega)⟩
  case ldMemVx x =>
    by_cases hc : s.i.toNat + x.val ≤ 4095
    · exact ⟨_, exec_ldMemVx_of_fits s x hc⟩
    · exact ⟨_, exec_ldMemVx_of_out s x (by omega)⟩
  case ldVxMem x =>
    by_cases hc : s.i.toNat + x.val ≤ 4095
    · exact ⟨_, exec_ldVxMem_of_fits s x hc⟩
    · exact ⟨_, exec_ldVxMem_of_out s x (by omega)⟩
  case drw x y n =>
    by_cases hc : n.val = 0 ∨ s.i.toNat + n.val - 1 ≤ 4095
    · exact ⟨_, exec_drw_of_fits s x y n hc⟩
    · exact ⟨_, exec_drw_of_out s x y n (by omega) (by omega)⟩
  case skp x =>
    by_cases hc : 15 < (s.readV x).toNat
    · exact ⟨_, exec_skp_of_out s x hc⟩
    · exact ⟨_, exec_skp_of_key s x ⟨(s.readV x).toNat, by omega⟩ rfl⟩
  case sknp x =>
    by_cases hc : 15 < (s.readV x).toNat
    · exact ⟨_, exec_sknp_of_out s x hc⟩
    · exact ⟨_, exec_sknp_of_key s x ⟨(s.readV x).toNat, by omega⟩ rfl⟩
  all_goals exact ⟨_, rfl⟩

/-- Every step of an instruction answers a next state. -/
theorem State.instrStep_completes : ∃ t, s.instrStep = .next t := by
  unfold State.instrStep
  split
  · split
    · exact exec_completes _ _
    · exact ⟨_, rfl⟩
  · exact ⟨_, rfl⟩

/-- The step loop of a tick answers a next state. -/
theorem runSteps_completes : ∀ (n : Nat) (s : State), ∃ t, runSteps n s = .next t
  | 0, s => ⟨s, rfl⟩
  | n + 1, s => by
    obtain ⟨u, hu⟩ := s.instrStep_completes
    rw [runSteps, hu]
    show ∃ t, (if u.canExecute then runSteps n u else .next u) = .next t
    split
    · exact runSteps_completes n u
    · exact ⟨_, rfl⟩

end Sys2Proof.Machine
end

