-- ==== Sys2Proof/Laws/PerInstr.lean ====
section
/-! SUPPORT. Per instruction: the word of a well-formed instruction decodes to it. -/

namespace Sys2Proof.Laws.EncodeDecode

/-- The decoder reads back the word of the instruction, if it is well formed. -/
def Statement (i : Instr) : Prop := i.wellFormed = true → decodeWord (encode i) = i

/-- The second level of family 0 leaves the no-op words to SYS (30_encoding.md R95). -/
theorem decodeFamily0_formNNN (nnn : Addr12) (h : definedSub0 nnn = false) :
    decodeFamily0 (formNNN 0 nnn) = .sys nnn := by
  simp only [definedSub0, Bool.or_eq_false_iff, beq_eq_false_iff_ne, ne_eq, ← BitVec.toNat_inj] at h
  have h1 : formNNN 0 nnn ≠ 0x00E0 := fun e => h.1 (by simpa [formNNN_toNat] using congrArg BitVec.toNat e)
  have h2 : formNNN 0 nnn ≠ 0x00EE := fun e => h.2 (by simpa [formNNN_toNat] using congrArg BitVec.toNat e)
  rw [decodeFamily0, if_neg h1, if_neg h2, nnnField_formNNN]

/-- The second level of family 8 leaves the no-op nibbles to NOP_8 (30_encoding.md R97). -/
theorem decodeFamily8_nop (x y : RegIx) :
    ∀ n : Nibble, definedSub8 n = false → decodeFamily8 x y n = .nop8 x y n := by
  intro n
  unfold decodeFamily8
  fin_cases n <;> simp [definedSub8]

/-- The second level of family E leaves the no-op bytes to NOP_E (30_encoding.md R98). -/
theorem decodeFamilyE_nop (x : RegIx) (kk : Byte) (h : definedSubE kk = false) :
    decodeFamilyE x kk = .nopE x kk := by
  simp_all [definedSubE, decodeFamilyE]

/-- The second level of family F leaves the no-op bytes to NOP_F (30_encoding.md R99). -/
theorem decodeFamilyF_nop (x : RegIx) (kk : Byte) (h : definedSubF kk = false) :
    decodeFamilyF x kk = .nopF x kk := by
  simp_all [definedSubF, decodeFamilyF]

theorem cls : Statement .cls := fun _ => by decide

theorem ret : Statement .ret := fun _ => by decide

theorem sys (nnn : Addr12) : Statement (.sys nnn) := fun h => by
  have h' : definedSub0 nnn = false := by simpa [Instr.wellFormed] using h
  simp [decodeWord, encode, decodeFamily0_formNNN nnn h']

theorem jp (nnn : Addr12) : Statement (.jp nnn) := fun _ => by simp [decodeWord, encode]

theorem call (nnn : Addr12) : Statement (.call nnn) := fun _ => by simp [decodeWord, encode]

theorem seImm (x : RegIx) (kk : Byte) : Statement (.seImm x kk) := fun _ => by simp [decodeWord, encode]

theorem sneImm (x : RegIx) (kk : Byte) : Statement (.sneImm x kk) := fun _ => by simp [decodeWord, encode]

theorem seReg (x : RegIx) (y : RegIx) (n : Nibble) : Statement (.seReg x y n) := fun _ => by simp [decodeWord, encode]

theorem ldImm (x : RegIx) (kk : Byte) : Statement (.ldImm x kk) := fun _ => by simp [decodeWord, encode]

theorem addImm (x : RegIx) (kk : Byte) : Statement (.addImm x kk) := fun _ => by simp [decodeWord, encode]

theorem ldReg (x : RegIx) (y : RegIx) : Statement (.ldReg x y) := fun _ => by simp [decodeWord, encode, decodeFamily8]

theorem or (x : RegIx) (y : RegIx) : Statement (.or x y) := fun _ => by simp [decodeWord, encode, decodeFamily8]

theorem and (x : RegIx) (y : RegIx) : Statement (.and x y) := fun _ => by simp [decodeWord, encode, decodeFamily8]

theorem xor (x : RegIx) (y : RegIx) : Statement (.xor x y) := fun _ => by simp [decodeWord, encode, decodeFamily8]

theorem addReg (x : RegIx) (y : RegIx) : Statement (.addReg x y) := fun _ => by simp [decodeWord, encode, decodeFamily8]

theorem sub (x : RegIx) (y : RegIx) : Statement (.sub x y) := fun _ => by simp [decodeWord, encode, decodeFamily8]

theorem shr (x : RegIx) (y : RegIx) : Statement (.shr x y) := fun _ => by simp [decodeWord, encode, decodeFamily8]

theorem subn (x : RegIx) (y : RegIx) : Statement (.subn x y) := fun _ => by simp [decodeWord, encode, decodeFamily8]

theorem shl (x : RegIx) (y : RegIx) : Statement (.shl x y) := fun _ => by simp [decodeWord, encode, decodeFamily8]

theorem nop8 (x : RegIx) (y : RegIx) (n : Nibble) : Statement (.nop8 x y n) := fun h => by
  have h' : definedSub8 n = false := by simpa [Instr.wellFormed] using h
  simp [decodeWord, encode, decodeFamily8_nop x y n h']

theorem sneReg (x : RegIx) (y : RegIx) (n : Nibble) : Statement (.sneReg x y n) := fun _ => by simp [decodeWord, encode]

theorem ldI (nnn : Addr12) : Statement (.ldI nnn) := fun _ => by simp [decodeWord, encode]

theorem jpV0 (nnn : Addr12) : Statement (.jpV0 nnn) := fun _ => by simp [decodeWord, encode]

theorem rnd (x : RegIx) (kk : Byte) : Statement (.rnd x kk) := fun _ => by simp [decodeWord, encode]

theorem drw (x : RegIx) (y : RegIx) (n : Nibble) : Statement (.drw x y n) := fun _ => by simp [decodeWord, encode]

theorem skp (x : RegIx) : Statement (.skp x) := fun _ => by simp [decodeWord, encode, decodeFamilyE]

theorem sknp (x : RegIx) : Statement (.sknp x) := fun _ => by simp [decodeWord, encode, decodeFamilyE]

theorem nopE (x : RegIx) (kk : Byte) : Statement (.nopE x kk) := fun h => by
  have h' : definedSubE kk = false := by simpa [Instr.wellFormed] using h
  simp [decodeWord, encode, decodeFamilyE_nop x kk h']

theorem ldVxDt (x : RegIx) : Statement (.ldVxDt x) := fun _ => by simp [decodeWord, encode, decodeFamilyF]

theorem ldVxK (x : RegIx) : Statement (.ldVxK x) := fun _ => by simp [decodeWord, encode, decodeFamilyF]

theorem ldDtVx (x : RegIx) : Statement (.ldDtVx x) := fun _ => by simp [decodeWord, encode, decodeFamilyF]

theorem ldStVx (x : RegIx) : Statement (.ldStVx x) := fun _ => by simp [decodeWord, encode, decodeFamilyF]

theorem addI (x : RegIx) : Statement (.addI x) := fun _ => by simp [decodeWord, encode, decodeFamilyF]

theorem ldF (x : RegIx) : Statement (.ldF x) := fun _ => by simp [decodeWord, encode, decodeFamilyF]

theorem ldB (x : RegIx) : Statement (.ldB x) := fun _ => by simp [decodeWord, encode, decodeFamilyF]

theorem ldMemVx (x : RegIx) : Statement (.ldMemVx x) := fun _ => by simp [decodeWord, encode, decodeFamilyF]

theorem ldVxMem (x : RegIx) : Statement (.ldVxMem x) := fun _ => by simp [decodeWord, encode, decodeFamilyF]

theorem nopF (x : RegIx) (kk : Byte) : Statement (.nopF x kk) := fun h => by
  have h' : definedSubF kk = false := by simpa [Instr.wellFormed] using h
  simp [decodeWord, encode, decodeFamilyF_nop x kk h']

end Sys2Proof.Laws.EncodeDecode
end

