-- ==== Sys2Proof/Tests/Slice0.lean ====
section
/-! SUPPORT. The model's own tests: ill-formed terms the well-formedness check refuses, words written out from
30_encoding.md R106 and 95_test_vectors.md 2.1, single steps whose results are those of 95_test_vectors.md (the
row is named at each), and for every statement with hypotheses a state and operands that meet them. -/

namespace Sys2Proof.Tests

open Sys2Proof.Machine

/-! ### Small states -/

/-- The state after reset with some registers written. -/
def withRegs (l : List (RegIx × Byte)) : State := l.foldl (fun s p => s.writeV p.1 p.2) State.reset

/-- The step that runs the word answers a next state with the property. -/
def runs (s : State) (w : Nat) (p : State → Bool) : Bool :=
  match step (s.withFetchWord 16 w) with
  | .next t => p t
  | .fault _ => false
  | .refused _ => false

/-- The step that handles the event answers a next state with the property. -/
def handles (s : State) (e : Event) (p : State → Bool) : Bool :=
  match step { s with events := [e] } with
  | .next t => p t
  | .fault _ => false
  | .refused _ => false

/-- The latch holds this record, and nothing else of the state has changed. -/
def latched (s : State) (w : Nat) (r : FaultRecord) : Bool :=
  runs s w fun t => t == { s.withFetchWord 16 w with fault := some r }

/-! ### Well-formedness: one ill-formed term for each check -/

theorem test_wf_sys_cls : (Instr.sys 0x0E0).wellFormed = false := by decide
theorem test_wf_sys_ret : (Instr.sys 0x0EE).wellFormed = false := by decide
theorem test_wf_nop8 : ∀ n : Nibble, n.val ≤ 7 ∨ n.val = 0xE → (Instr.nop8 1 2 n).wellFormed = false := by decide
theorem test_wf_nopE : (Instr.nopE 1 0x9E).wellFormed = false ∧ (Instr.nopE 1 0xA1).wellFormed = false := by decide
theorem test_wf_nopF : ∀ kk ∈ ([0x07, 0x0A, 0x15, 0x18, 0x1E, 0x29, 0x33, 0x55, 0x65] : List Byte),
    (Instr.nopF 1 kk).wellFormed = false := by decide
theorem test_wf_accepts : (Instr.sys 0x1E0).wellFormed = true ∧ (Instr.nop8 0 0 0xF).wellFormed = true ∧
    (Instr.nopE 1 0x9F).wellFormed = true ∧ (Instr.nopF 1 0x66).wellFormed = true := by decide

/-! ### Decoding: every constructor by a word written out (30_encoding.md R106; 95_test_vectors.md 2.1) -/

theorem test_decode_family0 : decodeWord 0b0000000011100000 = .cls ∧ decodeWord 0b0000000011101110 = .ret ∧
    decodeWord 0b0000000000000000 = .sys 0 ∧ decodeWord 0b0000000111100000 = .sys 0x1E0 ∧
    decodeWord 0b0000111111111111 = .sys 0xFFF := by decide
theorem test_decode_jumps : decodeWord 0b0001101010111100 = .jp 0xABC ∧
    decodeWord 0b0010000100100011 = .call 0x123 ∧ decodeWord 0b1011111000000001 = .jpV0 0xE01 := by decide
theorem test_decode_skips : decodeWord 0b0011101001111111 = .seImm 0xA 0x7F ∧
    decodeWord 0b0100000110000000 = .sneImm 1 0x80 ∧ decodeWord 0b0101000100100000 = .seReg 1 2 0 ∧
    decodeWord 0b0101000100100111 = .seReg 1 2 7 ∧ decodeWord 0b1001000100101111 = .sneReg 1 2 0xF := by decide
theorem test_decode_loads : decodeWord 0b0110101000101100 = .ldImm 0xA 0x2C ∧
    decodeWord 0b0111000111111111 = .addImm 1 0xFF ∧ decodeWord 0b1010001000010010 = .ldI 0x212 ∧
    decodeWord 0b1100001100001111 = .rnd 3 0x0F := by decide
theorem test_decode_family8_low : decodeWord 0b1000101010110000 = .ldReg 0xA 0xB ∧
    decodeWord 0b1000101010110001 = .or 0xA 0xB ∧ decodeWord 0b1000101010110010 = .and 0xA 0xB ∧
    decodeWord 0b1000101010110011 = .xor 0xA 0xB ∧ decodeWord 0b1000101010110100 = .addReg 0xA 0xB := by decide
theorem test_decode_family8_high : decodeWord 0b1000101010110101 = .sub 0xA 0xB ∧
    decodeWord 0b1000101010110110 = .shr 0xA 0xB ∧ decodeWord 0b1000101010110111 = .subn 0xA 0xB ∧
    decodeWord 0b1000000000011110 = .shl 0 1 := by decide
theorem test_decode_family8_nop : ∀ n ∈ ([0x8, 0x9, 0xA, 0xB, 0xC, 0xD, 0xF] : List Nibble),
    decodeWord (0b1000101010110000 + BitVec.ofNat 16 n.val) = .nop8 0xA 0xB n := by decide
theorem test_decode_drw : decodeWord 0b1101000100101111 = .drw 1 2 15 := by decide
theorem test_decode_familyE : decodeWord 0b1110000110011110 = .skp 1 ∧ decodeWord 0b1110000110100001 = .sknp 1 ∧
    decodeWord 0b1110000110011111 = .nopE 1 0x9F ∧ decodeWord 0b1110000110100000 = .nopE 1 0xA0 := by decide
theorem test_decode_familyF_low : decodeWord 0b1111000100000111 = .ldVxDt 1 ∧
    decodeWord 0b1111000100001010 = .ldVxK 1 ∧ decodeWord 0b1111000100010101 = .ldDtVx 1 ∧
    decodeWord 0b1111000100011000 = .ldStVx 1 ∧ decodeWord 0b1111000100011110 = .addI 1 := by decide
theorem test_decode_familyF_high : decodeWord 0b1111000100101001 = .ldF 1 ∧
    decodeWord 0b1111000100110011 = .ldB 1 ∧ decodeWord 0b1111000101010101 = .ldMemVx 1 ∧
    decodeWord 0b1111000101100101 = .ldVxMem 1 ∧ decodeWord 0b1111000100110000 = .nopF 1 0x30 := by decide
theorem test_decode_byte_order : decode [0x12, 0x34, 0x56] = .ok (.jp 0x234, [0x56]) := by rfl
theorem test_decode_truncated : decode [0x12] = .error .truncated := by rfl
theorem test_decode_table_word : decodeTableWord 16 0x8AB4 = some (.addReg 0xA 0xB) := by decide
theorem test_encode_words : encode (.drw 1 2 15) = 0xD12F ∧ encode (.ldVxMem 0xF) = 0xFF65 ∧
    encode (.shl 0 1) = 0x801E ∧ encode (.jpV0 0xE01) = 0xBE01 := by decide

/-! ### Single steps: control transfer (95_test_vectors.md 2.2) -/

theorem test_sys : runs State.reset 0x0123 (fun t => t == { State.reset.withFetchWord 16 0x0123 with pc := 0x202 }) = true := by
  decide
theorem test_jp_odd : runs State.reset 0x1203 (fun t => t.pc == 0x203) = true := by decide
theorem test_call : runs State.reset 0x2300 (fun t => t.stack[0] == 0x202 && t.sp == 1 && t.pc == 0x300) = true := by
  decide
theorem test_call_full : latched { State.reset with sp := 16 } 0x2300 ⟨.stackOverflow, 0x200, 0x2300, 16⟩ = true := by
  decide
theorem test_ret : runs { State.reset with sp := 1, stack := State.reset.stack.set 0 0x456 } 0x00EE
    (fun t => t.pc == 0x456 && t.sp == 0 && t.stack[0] == 0x456) = true := by decide
theorem test_ret_empty : latched State.reset 0x00EE ⟨.stackUnderflow, 0x200, 0x00EE, 0⟩ = true := by decide
theorem test_jpV0_past_memory : runs (withRegs [(0, 0xFF)]) 0xBFFF (fun t => t.pc == 0x10FE) = true := by decide
theorem test_seImm : runs (withRegs [(3, 0x42)]) 0x3342 (fun t => t.pc == 0x204) = true := by decide
theorem test_sneImm : runs (withRegs [(3, 0x42)]) 0x4342 (fun t => t.pc == 0x202) = true := by decide
theorem test_seReg : runs (withRegs [(3, 7), (4, 8)]) 0x5340 (fun t => t.pc == 0x202) = true := by decide
theorem test_sneReg : runs (withRegs [(3, 7), (4, 8)]) 0x9340 (fun t => t.pc == 0x204) = true := by decide

/-! ### Single steps: arithmetic and logic (95_test_vectors.md S1 to S5, 2.3) -/

theorem test_ldImm : runs State.reset 0x6FFF (fun t => t.readV 0xF == 0xFF) = true := by decide
theorem test_addImm_wraps : runs (withRegs [(1, 0xFE), (0xF, 0xAA)]) 0x7105
    (fun t => t.readV 1 == 0x03 && t.readV 0xF == 0xAA) = true := by decide
theorem test_ldReg : runs (withRegs [(2, 0x77)]) 0x8120 (fun t => t.readV 1 == 0x77) = true := by decide
theorem test_or : runs (withRegs [(1, 0x0F), (2, 0xF0), (0xF, 0xAA)]) 0x8121
    (fun t => t.readV 1 == 0xFF && t.readV 0xF == 0xAA) = true := by decide
theorem test_and : runs (withRegs [(1, 0x3C), (2, 0x0F)]) 0x8122 (fun t => t.readV 1 == 0x0C) = true := by decide
theorem test_xor : runs (withRegs [(1, 0xFF), (2, 0x0F)]) 0x8123 (fun t => t.readV 1 == 0xF0) = true := by decide
theorem test_addReg_carry : runs (withRegs [(1, 200), (2, 200)]) 0x8124
    (fun t => t.readV 1 == 144 && t.readV 2 == 200 && t.readV 0xF == 1) = true := by decide
theorem test_addReg_into_VF : runs (withRegs [(0xF, 200), (2, 100)]) 0x8F24 (fun t => t.readV 0xF == 44) = true := by
  decide
theorem test_sub_borrow : runs (withRegs [(1, 0), (2, 1)]) 0x8125
    (fun t => t.readV 1 == 0xFF && t.readV 0xF == 0) = true := by decide
theorem test_sub_equal : runs (withRegs [(1, 9), (2, 9)]) 0x8125
    (fun t => t.readV 1 == 0 && t.readV 0xF == 1) = true := by decide
theorem test_shr : runs (withRegs [(1, 5), (2, 0x99)]) 0x8126
    (fun t => t.readV 1 == 2 && t.readV 0xF == 1 && t.readV 2 == 0x99) = true := by decide
theorem test_subn : runs (withRegs [(1, 3), (2, 10)]) 0x8127
    (fun t => t.readV 1 == 7 && t.readV 0xF == 1 && t.readV 2 == 10) = true := by decide
theorem test_subn_borrow : runs (withRegs [(1, 10), (2, 3)]) 0x8127
    (fun t => t.readV 1 == 0xF9 && t.readV 0xF == 0) = true := by decide
theorem test_shl : runs (withRegs [(0, 192)]) 0x801E
    (fun t => t.readV 0 == 128 && t.readV 0xF == 1 && t.readV 1 == 0) = true := by decide
theorem test_shl_into_VF : runs (withRegs [(0xF, 0x81)]) 0x8F0E (fun t => t.readV 0xF == 0x02) = true := by decide
theorem test_nop8 : runs (withRegs [(1, 7)]) 0x8128 (fun t => t.readV 1 == 7 && t.pc == 0x202) = true := by decide
/-- The value drawn is free: only what holds for every value is tested. -/
theorem test_rnd_counts : runs State.reset 0xC30F (fun t => t.draws == 1 && t.pc == 0x202) = true := by decide

/-! ### Single steps: index register and memory (95_test_vectors.md S11, S12, 2.4) -/

theorem test_ldI : runs State.reset 0xAFFF (fun t => t.i == 0x0FFF) = true := by decide
theorem test_addI_not_masked : runs { withRegs [(0, 1)] with i := 0x0FFF } 0xF01E
    (fun t => t.i == 0x1000 && t.readV 0xF == 0) = true := by decide
theorem test_addI_wraps : runs { withRegs [(1, 0xFF)] with i := 0xFF80 } 0xF11E (fun t => t.i == 0x007F) = true := by
  decide
theorem test_ldF_whole_value : runs (withRegs [(2, 0xFF)]) 0xF229 (fun t => t.i == 1275) = true := by decide
theorem test_ldB : runs { withRegs [(4, 123)] with i := 1000 } 0xF433
    (fun t => t.readByte 1000 == 1 && t.readByte 1001 == 2 && t.readByte 1002 == 3 && t.i == 1000) = true := by decide
theorem test_ldB_faults : latched { withRegs [(3, 255)] with i := 0xFFE, pc := 0x202 } 0xF333
    ⟨.writeOutOfBounds, 0x202, 0xF333, 4096⟩ = true := by decide
theorem test_ldMemVx : runs { withRegs [(0, 0xAA), (1, 0xBB), (2, 0xCC), (3, 0xDD)] with i := 0x300 } 0xF255
    (fun t => t.readBytes 0x300 4 == [0xAA, 0xBB, 0xCC, 0] && t.i == 0x300) = true := by decide
theorem test_ldMemVx_faults : latched { State.reset with i := 0xFFFF } 0xF055
    ⟨.writeOutOfBounds, 0x200, 0xF055, 0xFFFF⟩ = true := by decide
theorem test_ldVxMem : runs { (withRegs [(3, 9)]).writeBytes 0x300 [2, 5, 4, 7] with i := 0x300 } 0xF265
    (fun t => t.readV 0 == 2 && t.readV 1 == 5 && t.readV 2 == 4 && t.readV 3 == 9 && t.i == 0x300) = true := by decide
theorem test_ldVxMem_faults : latched { State.reset with i := 0xFFF, pc := 0x202 } 0xF165
    ⟨.readOutOfBounds, 0x202, 0xF165, 4096⟩ = true := by decide

/-! ### Single steps: display (95_test_vectors.md S6, S7, 2.5) -/

theorem test_cls : runs { State.reset with fb := Grid.blank.setPixel 3 4 true } 0x00E0
    (fun t => t.fb == Grid.blank && t.pc == 0x202) = true := by decide
theorem test_drw_wraps : runs { (withRegs [(0, 63), (1, 31)]).writeBytes 0x212 [0xC0, 0xC0] with i := 0x212 } 0xD012
    (fun t => t.pixel 63 31 && t.pixel 0 31 && t.pixel 63 0 && t.pixel 0 0 && !t.pixel 1 0 && t.readV 0xF == 0) =
      true := by decide
theorem test_drw_collides : runs { State.reset.writeBytes 0x300 [0xC0] with
      i := 0x300, fb := Grid.blank.setPixel 1 0 true } 0xD011
    (fun t => t.pixel 0 0 && !t.pixel 1 0 && t.readV 0xF == 1) = true := by decide

/-! ### Single steps: keys and timers (95_test_vectors.md 2.6) -/

theorem test_skp : runs ((withRegs [(1, 5)]).setKey 5 true) 0xE19E (fun t => t.pc == 0x204) = true := by decide
theorem test_skp_faults : latched (withRegs [(1, 16)]) 0xE19E ⟨.keyIndexOutOfRange, 0x200, 0xE19E, 16⟩ = true := by
  decide
theorem test_sknp : runs ((withRegs [(1, 5)]).setKey 5 true) 0xE1A1 (fun t => t.pc == 0x202) = true := by decide
theorem test_sknp_faults : latched (withRegs [(1, 255)]) 0xE1A1 ⟨.keyIndexOutOfRange, 0x200, 0xE1A1, 255⟩ = true := by
  decide
theorem test_nopE : runs State.reset 0xE19F (fun t => t == { State.reset.withFetchWord 16 0xE19F with pc := 0x202 }) =
    true := by decide
theorem test_ldVxDt : runs { State.reset with dt := 0x2A } 0xF307 (fun t => t.readV 3 == 0x2A && t.dt == 0x2A) =
    true := by decide
theorem test_ldDtVx : runs (withRegs [(1, 60)]) 0xF115 (fun t => t.dt == 60) = true := by decide
theorem test_ldStVx : runs { State.reset with st := 9, tone := true } 0xF218 (fun t => t.st == 0 && t.tone) = true := by
  decide
theorem test_ldVxK : runs State.reset 0xF20A (fun t => t.wait == .awaitingKey 2 && t.pc == 0x202) = true := by decide
theorem test_nopF : runs State.reset 0xF1FF (fun t => t == { State.reset.withFetchWord 16 0xF1FF with pc := 0x202 }) =
    true := by decide

/-! ### Events of the host (95_test_vectors.md S13, 2.7, 2.8) -/

theorem test_tick_paused : handles { State.reset with wait := .awaitingKey 2, dt := 5, st := 5, tone := true } (.tick 10)
    (fun t => !t.tone && t.dt == 5 && t.st == 5 && t.pc == 0x200) = true := by decide
theorem test_tick_timers_first : handles { (State.reset.writeBytes 0x200 [0xF0, 0x07, 0x12, 0x02]) with dt := 3 }
    (.tick 3) (fun t => t.dt == 2 && t.readV 0 == 2) = true := by decide
theorem test_tick_stops_at_fault : handles { State.reset with pc := 0xFFC } (.tick 10)
    (fun t => t.fault == some ⟨.fetchOutOfBounds, 0x1000, 0, 0x1000⟩ && t.pc == 0x1000) = true := by decide
theorem test_ended_at_self_jump : (State.reset.withFetchWord 16 0x1200).ended = true ∧
    runs State.reset 0x1200 (fun t => t == State.reset.withFetchWord 16 0x1200) = true := by decide
theorem test_not_ended : (State.reset.withFetchWord 16 0x1202).ended = false ∧
    { State.reset.withFetchWord 16 0x1200 with wait := .awaitingKey 2 }.ended = false := by decide
theorem test_key_ends_wait : handles { State.reset with wait := .awaitingKey 6 } (.key 0xB true)
    (fun t => t.readKey 0xB && t.readV 6 == 0x0B && t.wait == .running) = true := by decide
theorem test_key_repeat : handles { State.reset.setKey 0xB true with wait := .awaitingKey 6 } (.key 0xB true)
    (fun t => t == { State.reset.setKey 0xB true with wait := .awaitingKey 6 }) = true := by decide
theorem test_reset_event : handles { withRegs [(3, 9)] with
      i := 0x400, pc := 0x350, sp := 4, dt := 8, tone := true, wait := .awaitingKey 3, mem := [(0x300, 0x77)],
      fault := some ⟨.stackOverflow, 0x350, 0x2200, 16⟩ } .reset
    (fun t => t == { State.reset with mem := [(0x300, 0x77)] }) = true := by decide
theorem test_load : handles (State.reset.writeBytes 0x200 [1, 2, 3, 4]) (.load [0xAA, 0xBB])
    (fun t => t.readBytes 0x200 4 == [0xAA, 0xBB, 3, 4] && t.loadReply == some .ok) = true := by decide
theorem test_memory_canonical : (State.reset.writeBytes 0x300 [5]).writeBytes 0x300 [0] = State.reset := by decide

/-! ### Witnesses: a state and operands that meet the hypotheses of each statement, at a boundary for each clause -/

/-- A state at the last place a fetch can be made, with a word stored there. -/
def lastFetch (w : Nat) : State := { State.reset with pc := 4094 }.withFetchWord 16 w

/-- A faulted state: CALL on a full stack at 0x200. -/
def faulted : State :=
  { State.reset with sp := 16, fault := some ⟨.stackOverflow, 0x200, 0x2200, 16⟩ }

theorem witness_DecodeAndEncodeAreInverse : (Instr.nop8 0 0 8).wellFormed = true := by decide
theorem witness_StepRunsTheDecodedInstruction : (lastFetch 0xD12F).fault = none ∧ (lastFetch 0xD12F).wait = .running ∧
    (lastFetch 0xD12F).pc.toNat ≤ 4094 ∧ (lastFetch 0xD12F).events = [] ∧
    decode [(lastFetch 0xD12F).readByte 4094, (lastFetch 0xD12F).readByte 4095] = .ok (.drw 1 2 15, []) :=
  ⟨by decide, by decide, by decide, by decide, by rfl⟩
theorem witness_StepRunsTheDecodedInstruction_event : { lastFetch 0xD12F with events := [.step] }.events = .step :: [] ∧
    decode [{ lastFetch 0xD12F with events := [.step] }.readByte 4094, (lastFetch 0xD12F).readByte 4095] =
      .ok (.drw 1 2 15, []) := ⟨by decide, by rfl⟩
theorem witness_StepRunsAStoredInstruction : (lastFetch 0xD12F).events = [] ∧ (Instr.drw 1 2 15).wellFormed = true ∧
    [(lastFetch 0xD12F).readByte 4094, (lastFetch 0xD12F).readByte 4095] = encodeBytes (.drw 1 2 15) := by decide
theorem witness_FetchOutsideMemoryFaults : ∃ s : State, s.fault = none ∧ s.wait = .running ∧ s.events = [] ∧
    4094 < s.pc.toNat ∧ s.pc = 4095 := ⟨{ State.reset with pc := 4095 }, by decide⟩
theorem witness_GatedStepChangesNothing : (faulted.fault ≠ none ∧ faulted.events = []) ∧
    { State.reset with wait := .awaitingKey 0, events := [.step] }.wait ≠ .running := by decide
theorem witness_StepsLeaveTimersToneAndKeys : ∃ t, (lastFetch 0xF115).instrStep = .next t :=
  State.instrStep_completes _
theorem witness_NoOpsOnlyAdvance : ∃ i : Instr, (∃ x kk, i = .nopF x kk) := ⟨.nopF 1 0x75, 1, 0x75, rfl⟩
theorem witness_JumpsWritePc : opField 0x1FFF = 0x1 ∧ opField 0xB000 = 0xB := by decide
theorem witness_ImmediateSkips : opField 0x3F00 = 0x3 ∧ opField 0x40FF = 0x4 := by decide
theorem witness_LoadsAndAddImmediate : opField 0x6FFF = 0x6 ∧ opField 0x7000 = 0x7 ∧ opField 0x8FF0 = 0x8 ∧
    nField 0x8FF0 = 0x0 := by decide
theorem witness_IndexRegisterLoads : opField 0xAFFF = 0xA ∧ opField 0xFF29 = 0xF ∧ kkField 0xFF29 = 0x29 := by decide
theorem witness_CallPushesAndJumps : { State.reset with sp := 15 }.sp.val < 16 := by decide
theorem witness_CallThenRetReturns : { State.reset with sp := 15 }.sp.val < 16 := by decide
theorem witness_RetPops : { State.reset with sp := 1 }.sp.val = (0 : Fin 16).val + 1 ∧
    { State.reset with sp := 16 }.sp.val = (15 : Fin 16).val + 1 := by decide
theorem witness_StackFaultsLatch : { State.reset with sp := 16 }.sp.val = 16 ∧ State.reset.sp.val = 0 := by decide
theorem witness_AddAndSubtractWithFlag : (0xE : RegIx) ≠ 0xF := by decide
theorem witness_ShiftsInPlaceWithFlag : (0xE : RegIx) ≠ 0xF := by decide
theorem witness_RandomByteIsMasked : (7 : Nat) < 8 ∧ (0x0F : Byte).getLsbD 7 = false := by decide
theorem witness_DecimalDigitsStored : Memory.wf State.reset.mem = true ∧
    { State.reset with i := 0xFFD }.i.toNat + 2 ≤ 4095 := by decide
theorem witness_BlockStore : Memory.wf State.reset.mem = true ∧
    { State.reset with i := 0xFF0 }.i.toNat + (15 : RegIx).val ≤ 4095 := by decide
theorem witness_BlockLoad : { State.reset with i := 0xFF0 }.i.toNat + (15 : RegIx).val ≤ 4095 := by decide
theorem witness_BlockStoreThenLoad : Memory.wf State.reset.mem = true ∧
    { State.reset with i := 0xFFF }.i.toNat + (0 : RegIx).val ≤ 4095 := by decide
theorem witness_ClearUnsetsEveryPixel : opField 0x00E1 = 0x0 ∧ (0x00E1 : Word) ≠ 0x00E0 ∧ (0x00E1 : Word) ≠ 0x00EE := by
  decide
theorem witness_RangeFaultsLatch_ldB : 4095 < { State.reset with i := 0xFFE }.i.toNat + 2 := by decide
theorem witness_RangeFaultsLatch_blocks : 4095 < { State.reset with i := 0xFF1 }.i.toNat + (15 : RegIx).val := by decide
theorem witness_RangeFaultsLatch_drw : 1 ≤ (2 : Nibble).val ∧
    4095 < { State.reset with i := 0xFFF }.i.toNat + (2 : Nibble).val - 1 := by decide
theorem witness_StoreIsSeenByTheNextFetch : ∃ s : State, Memory.wf s.mem = true ∧ 1 ≤ (1 : RegIx).val ∧
    s.i = s.pc + 2 ∧ s.i.toNat + (1 : RegIx).val ≤ 4095 := ⟨{ State.reset with i := 0x202 }, by decide⟩
theorem witness_DrawXorsTheSprite_no_rows : (0 : Nibble).val = 0 := by decide
theorem witness_DrawXorsTheSprite_rows :
    { State.reset with i := 0xFF1 }.i.toNat + (15 : Nibble).val - 1 ≤ 4095 := by decide
theorem witness_DrawTwiceRestoresTheGrid : (List.replicate 15 (0xFF : Byte)).length ≤ 15 := by decide
theorem witness_KeySkips : ((withRegs [(1, 15)]).readV 1).toNat = (15 : KeyCode).val ∧
    (State.reset.readV 1).toNat = (0 : KeyCode).val := by decide
theorem witness_KeyIndexFaultsLatch : 15 < ((withRegs [(1, 16)]).readV 1).toNat := by decide
theorem witness_OnlyNamedInstructionsWrite_memory : ∃ t, exec (.ldB 4) (withRegs [(4, 123)]) = .next t ∧
    t.mem ≠ (withRegs [(4, 123)]).mem := ⟨_, rfl, by decide⟩
theorem witness_OnlyNamedInstructionsWrite_display : ∃ t, exec (.drw 0 0 1) State.reset = .next t ∧
    t.fb ≠ State.reset.fb := ⟨_, rfl, by decide⟩
theorem witness_OnlyNamedInstructionsWrite_stack : ∃ t, exec (.call 0x300) State.reset = .next t ∧
    t.stack ≠ State.reset.stack ∧ t.sp ≠ State.reset.sp := ⟨_, rfl, by decide, by decide⟩
theorem witness_OnlyNamedInstructionsWrite_i : ∃ t, exec (.ldI 0x300) State.reset = .next t ∧
    t.i ≠ State.reset.i := ⟨_, rfl, by decide⟩
theorem witness_OnlyNamedInstructionsWrite_dt : ∃ t, exec (.ldDtVx 1) (withRegs [(1, 60)]) = .next t ∧
    t.dt ≠ (withRegs [(1, 60)]).dt := ⟨_, rfl, by decide⟩
theorem witness_OnlyNamedInstructionsWrite_st : ∃ t, exec (.ldStVx 1) (withRegs [(1, 60)]) = .next t ∧
    t.st ≠ (withRegs [(1, 60)]).st := ⟨_, rfl, by decide⟩
theorem witness_OnlyNamedInstructionsWrite_wait : ∃ t, exec (.ldVxK 15) State.reset = .next t ∧
    t.wait ≠ State.reset.wait := ⟨_, rfl, by decide⟩
theorem witness_OnlyNamedInstructionsWrite_draws : ∃ t, exec (.rnd 1 0xFF) State.reset = .next t ∧
    t.draws ≠ State.reset.draws := ⟨_, rfl, by decide⟩
theorem witness_OnlyNamedInstructionsWrite_register : ∃ t, exec (.ldImm 15 1) State.reset = .next t ∧
    t.readV 15 ≠ State.reset.readV 15 := ⟨_, rfl, by decide⟩
theorem witness_FlagRegisterContract_alu : (14 : RegIx) ≠ 0xF ∧
    ∃ t, exec (.sub 14 15) State.reset = .next t := ⟨by decide, _, rfl⟩
theorem witness_FlagRegisterContract_drw : ¬ FaultCondition (.drw 0 1 15) { State.reset with i := 0xFF1 } ∧
    ∃ t, exec (.drw 0 1 15) { State.reset with i := 0xFF1 } = .next t := ⟨by unfold FaultCondition; decide, exec_completes _ _⟩
theorem witness_FlagRegisterContract_other : ¬ MayWriteReg (.or 14 15) 0xF ∧
    ∃ t, exec (.or 14 15) State.reset = .next t := ⟨by unfold MayWriteReg; decide, _, rfl⟩
theorem witness_FaultsArePrecise_ranges : State.reset.fault = none ∧
    FaultCondition (.ldB 0) { State.reset with i := 0xFFE } ∧
    FaultCondition (.ldMemVx 1) { State.reset with i := 0xFFF } ∧
    FaultCondition (.ldVxMem 15) { State.reset with i := 0xFF1 } ∧
    FaultCondition (.drw 0 0 2) { State.reset with i := 0xFFF } := by
  refine ⟨rfl, ?_, ?_, ?_, ?_⟩ <;> unfold FaultCondition <;> decide
theorem witness_FaultsArePrecise_others : FaultCondition (.call 0x200) { State.reset with sp := 16 } ∧
    FaultCondition .ret State.reset ∧ FaultCondition (.skp 1) (withRegs [(1, 16)]) ∧
    FaultCondition (.sknp 1) (withRegs [(1, 255)]) ∧ ¬ FaultCondition (.skp 1) (withRegs [(1, 15)]) := by
  refine ⟨?_, ?_, ?_, ?_, ?_⟩ <;> unfold FaultCondition <;> decide
theorem witness_PausedTickOnlyStopsTheTone : 1 ≤ 1 ∧ State.reset.fault = none ∧
    { State.reset with wait := .awaitingKey 15 }.wait = .awaitingKey 15 := by decide
theorem witness_TickMovesTimersBeforeSteps : 1 ≤ 1 ∧ State.reset.fault = none ∧ State.reset.wait = .running := by decide
theorem witness_ScheduledEventIsHandled : State.reset.events = [] ∧
    { State.reset with events := [.tick 10] }.events = .tick 10 :: [] := by decide
/-- One step of three: RET on the empty stack faults. -/
theorem witness_TickRunsStepsUntilWaitOrFault : (State.reset.withFetchWord 16 0x00EE).canExecute = true ∧
    ∃ t, runSteps 3 (State.reset.withFetchWord 16 0x00EE) = .next t ∧ t.fault ≠ none :=
  ⟨by decide, _, rfl, by decide⟩
/-- A jump to itself at 0xFFE, the last place a fetch can be made, with a timer running. -/
theorem witness_EndedRunStaysEnded : { lastFetch 0x1FFE with dt := 3, events := [.tick 1] }.ended = true ∧
    ∃ t, step { lastFetch 0x1FFE with dt := 3, events := [.tick 1] } = .next t ∧ t.dt = 2 :=
  ⟨by decide, _, rfl, by decide⟩
theorem witness_ZeroSpeedTickHasNoMove : { State.reset with events := [.tick 0] }.events = .tick 0 :: [] := by decide
theorem witness_KeyEventsFollowTheGate_repeat : { State.reset with events := [.key 15 false] }.events =
    .key 15 false :: [] ∧ State.reset.fault = none ∧ State.reset.readKey 15 = false := by decide
theorem witness_KeyEventsFollowTheGate_press : { State.reset with wait := .awaitingKey 15 }.readKey 9 ≠ true ∧
    { State.reset with wait := .awaitingKey 15 }.wait = .awaitingKey 15 := by decide
theorem witness_KeyEventsFollowTheGate_release : (State.reset.setKey 9 true).readKey 9 ≠ false ∧
    (State.reset.setKey 9 true).fault = none := by decide
theorem witness_KeyWaitIsLeftOnlyByPressOrReset : { State.reset with wait := .awaitingKey 3 }.wait = .awaitingKey 3 ∧
    (∃ t, step { State.reset with wait := .awaitingKey 3 } = .next t ∧ t.wait = .awaitingKey 3) ∧
    (∃ t, step { State.reset with wait := .awaitingKey 3, events := [.key 9 true] } = .next t ∧ t.wait = .running) ∧
    ∃ t, step { State.reset with wait := .awaitingKey 3, events := [.reset] } = .next t ∧ t.wait = .running :=
  ⟨by decide, ⟨_, rfl, by decide⟩, ⟨_, rfl, by decide⟩, ⟨_, rfl, by decide⟩⟩
theorem witness_OnlyKeyWaitInstructionEntersTheWait : (lastFetch 0xFF0A).wait = .running ∧
    ∃ t, (lastFetch 0xFF0A).instrStep = .next t ∧ t.wait = .awaitingKey 15 := ⟨by decide, _, rfl, by decide⟩
theorem witness_ResetEventValues : { faulted with events := [.reset] }.events = .reset :: [] := by decide
theorem witness_LoadCopiesTheBytes : { State.reset with events := [.load (List.replicate 3584 0xAA)] }.events =
    .load (List.replicate 3584 0xAA) :: [] ∧ Memory.wf State.reset.mem = true ∧
    (List.replicate 3584 (0xAA : Byte)).length ≤ 3584 ∧ 3583 < (List.replicate 3584 (0xAA : Byte)).length :=
  ⟨rfl, by decide, Nat.le_of_eq List.length_replicate, by rw [List.length_replicate]; decide⟩
theorem witness_LongLoadIsRejected : { State.reset with events := [.load (List.replicate 3585 0xAA)] }.events =
    .load (List.replicate 3585 0xAA) :: [] ∧ 3584 < (List.replicate 3585 (0xAA : Byte)).length :=
  ⟨rfl, by rw [List.length_replicate]; decide⟩
theorem witness_FaultedMachineIsHalted : faulted.fault = some ⟨.stackOverflow, 0x200, 0x2200, 16⟩ ∧
    (∃ t, step faulted = .next t ∧ t.fault ≠ none) ∧
    (∃ t, step { faulted with events := [.reset] } = .next t ∧ t.fault = none) ∧
    ∃ t, step { faulted with events := [.load [0xAA]] } = .next t ∧ t.mem ≠ faulted.mem :=
  ⟨by decide, ⟨_, rfl, by decide⟩, ⟨_, rfl, by decide⟩, ⟨_, rfl, by decide⟩⟩
theorem witness_StepKeepsTheInvariant : faulted.Inv ∧ { State.reset with pc := 0x10FE, sp := 1 }.Inv ∧
    ∃ t, step { State.reset with pc := 0x10FE, sp := 1 } = .next t ∧ t.fault ≠ none :=
  ⟨⟨by decide, by decide, by decide, by decide⟩, ⟨by decide, by decide, by decide, by decide⟩, _, rfl, by decide⟩
theorem witness_EveryStepCompletes : ∀ rest, { State.reset with events := [.tick 1] }.events ≠ .tick 0 :: rest := by
  intro rest h; cases h

end Sys2Proof.Tests
end

section
/-! Control transfer, 41_flow.md: the jumps and the skips on an immediate. -/

namespace Sys2Proof.Machine

/-! ### The words of the four instructions (30_encoding.md R94) -/

theorem decodeWord_of_opField_1 {w : Word} (h : opField w = 0x1) : decodeWord w = .jp (nnnField w) := by
  simp only [decodeWord, h]

theorem decodeWord_of_opField_3 {w : Word} (h : opField w = 0x3) :
    decodeWord w = .seImm (xField w) (kkField w) := by
  simp only [decodeWord, h]

theorem decodeWord_of_opField_4 {w : Word} (h : opField w = 0x4) :
    decodeWord w = .sneImm (xField w) (kkField w) := by
  simp only [decodeWord, h]

theorem decodeWord_of_opField_B {w : Word} (h : opField w = 0xB) : decodeWord w = .jpV0 (nnnField w) := by
  simp only [decodeWord, h]

/-! ### Where control goes -/

/-- A jump after the advance writes `PC` and nothing else. -/
theorem pcFrame_setPc (s : State) (target : Word) : PcFrame s (s.advance.setPc target) :=
  ⟨fun _ => rfl, rfl⟩

/-- The target of JP V0 is at most 4095 + 255, so the 16-bit sum does not wrap (41_flow.md R139). -/
theorem toNat_addrWord_add_byteWord (nnn : Addr12) (b : Byte) :
    (addrWord nnn + byteWord b).toNat = nnn.toNat + b.toNat := by
  have hn := nnn.isLt
  have hb := b.isLt
  rw [BitVec.toNat_add, toNat_addrWord, toNat_byteWord]
  exact Nat.mod_eq_of_lt (by omega)

/-- A skip on equality of two bytes moves `PC` on by 4 exactly when their values are equal. -/
theorem State.pc_skipIf_beq (s : State) (a b : Byte) :
    (s.advance.skipIf (a == b)).pc = s.pc + (if a.toNat = b.toNat then 4 else 2) := by
  rw [State.pc_advance_skipIf]
  simp only [beq_iff_eq, BitVec.toNat_inj]

/-- A skip on inequality of two bytes moves `PC` on by 2 exactly when their values are equal. -/
theorem State.pc_skipIf_bne (s : State) (a b : Byte) :
    (s.advance.skipIf (a != b)).pc = s.pc + (if a.toNat = b.toNat then 2 else 4) := by
  rw [State.pc_advance_skipIf]
  simp only [bne_iff_ne, ne_eq, ite_not, BitVec.toNat_inj]

/-! ### The meanings of the four instructions -/

theorem exec_jp (s : State) (nnn : Addr12) :
    exec (.jp nnn) s = .next (s.advance.setPc (addrWord nnn)) := rfl

theorem exec_jpV0 (s : State) (nnn : Addr12) :
    exec (.jpV0 nnn) s = .next (s.advance.setPc (addrWord nnn + byteWord (s.readV 0))) := rfl

theorem exec_seImm (s : State) (x : RegIx) (kk : Byte) :
    exec (.seImm x kk) s = .next (s.advance.skipIf (s.readV x == kk)) := rfl

theorem exec_sneImm (s : State) (x : RegIx) (kk : Byte) :
    exec (.sneImm x kk) s = .next (s.advance.skipIf (s.readV x != kk)) := rfl

/-! ### The obligations -/

/-- Settles O11: the target is the zero-extended `nnn`, for JP V0 with V0 added, and the sum never wraps. -/
theorem jumpsWritePc : Obligations.JumpsWritePc := by
  intro s nnn
  refine ⟨⟨_, exec_jp s nnn, ?_, pcFrame_setPc s _⟩, ⟨_, exec_jpV0 s nnn, ?_, pcFrame_setPc s _⟩,
    fun _ => decodeWord_of_opField_1, fun _ => decodeWord_of_opField_B⟩
  · exact toNat_addrWord nnn
  · exact toNat_addrWord_add_byteWord nnn (s.readV 0)

/-- Settles O12: both are the conditional skip, on equality and on inequality of `V[x]` and `kk`. -/
theorem immediateSkips : Obligations.ImmediateSkips := fun s x kk =>
  ⟨⟨_, exec_seImm s x kk, s.pc_skipIf_beq (s.readV x) kk, pcFrame_skipIf s _⟩,
    ⟨_, exec_sneImm s x kk, s.pc_skipIf_bne (s.readV x) kk, pcFrame_skipIf s _⟩,
    fun _ => decodeWord_of_opField_3, fun _ => decodeWord_of_opField_4⟩

end Sys2Proof.Machine
end

section
/-! Loads and the add of an immediate, 42_alu.md R150 to R152. -/

namespace Sys2Proof.Machine

/-! ### The words of the three instructions (30_encoding.md R94, R97) -/

theorem decodeWord_of_opField_6 {w : Word} (h : opField w = 0x6) :
    decodeWord w = .ldImm (xField w) (kkField w) := by
  simp only [decodeWord, h]

theorem decodeWord_of_opField_7 {w : Word} (h : opField w = 0x7) :
    decodeWord w = .addImm (xField w) (kkField w) := by
  simp only [decodeWord, h]

theorem decodeWord_of_opField_8 {w : Word} (h : opField w = 0x8) :
    decodeWord w = decodeFamily8 (xField w) (yField w) (nField w) := by
  simp only [decodeWord, h]

theorem decodeFamily8_0 (x y : RegIx) : decodeFamily8 x y 0x0 = .ldReg x y := if_pos rfl

/-! ### The meanings of the three instructions -/

theorem exec_ldImm (s : State) (x : RegIx) (kk : Byte) :
    exec (.ldImm x kk) s = .next (s.advance.writeV x kk) := rfl

theorem exec_addImm (s : State) (x : RegIx) (kk : Byte) :
    exec (.addImm x kk) s = .next (s.advance.writeV x (s.readV x + kk)) := rfl

theorem exec_ldReg (s : State) (x y : RegIx) :
    exec (.ldReg x y) s = .next (s.advance.writeV x (s.readV y)) := rfl

/-! ### The obligation -/

/-- Settles O18: each of the three is the advance and one register write, so what `V[x]` reads and what stays
are the two facts about that write; the byte sum is modulo 256 (42_alu.md R162). -/
theorem loadsAndAddImmediate : Obligations.LoadsAndAddImmediate := by
  intro s x y kk
  refine ⟨⟨_, exec_ldImm s x kk, State.readV_writeV_self _ x kk, regFrame_writeV s x kk⟩,
    ⟨_, exec_addImm s x kk, ?sum, regFrame_writeV s x _⟩,
    ⟨_, exec_ldReg s x y, State.readV_writeV_self _ x _, regFrame_writeV s x _⟩,
    fun _ => decodeWord_of_opField_6, fun _ => decodeWord_of_opField_7, ?copyWord⟩
  case sum =>
    rw [State.readV_writeV_self]
    exact BitVec.toNat_add (s.readV x) kk
  case copyWord =>
    intro w hop hn
    rw [decodeWord_of_opField_8 hop, hn, decodeFamily8_0]

end Sys2Proof.Machine
end

section
/-! The loads of `I`, 43_index_memory.md R170 and R172. -/

namespace Sys2Proof.Machine

/-! ### The words of the two instructions (30_encoding.md R94, R99) -/

theorem decodeWord_of_opField_A {w : Word} (h : opField w = 0xA) : decodeWord w = .ldI (nnnField w) := by
  simp only [decodeWord, h]

theorem decodeWord_of_opField_F {w : Word} (h : opField w = 0xF) :
    decodeWord w = decodeFamilyF (xField w) (kkField w) := by
  simp only [decodeWord, h]

theorem decodeFamilyF_29 (x : RegIx) : decodeFamilyF x 0x29 = .ldF x := rfl

/-! ### The meanings of the two instructions -/

theorem exec_ldI (s : State) (nnn : Addr12) :
    exec (.ldI nnn) s = .next (s.advance.setI (addrWord nnn)) := rfl

theorem exec_ldF (s : State) (x : RegIx) :
    exec (.ldF x) s = .next (s.advance.setI (glyphAddr (s.readV x))) := rfl

/-- A write of `I` after the advance changes `I` and `PC` and nothing else. -/
theorem indexFrame_setI (s : State) (w : Word) :
    (s.advance.setI w).pc = s.pc + 2 ∧ ReadsAsBefore s (s.advance.setI w) ∧
      s.advance.setI w = { s with i := (s.advance.setI w).i, pc := (s.advance.setI w).pc } :=
  ⟨rfl, fun _ => rfl, rfl⟩

/-! ### The obligation -/

/-- Settles O23: each of the two is the advance and one write of `I`; what is written is `nnn` zero-extended
and five times the whole `V[x]`, at most 1275, so neither is reduced. -/
theorem indexRegisterLoads : Obligations.IndexRegisterLoads := by
  intro s nnn x
  refine ⟨⟨_, exec_ldI s nnn, toNat_addrWord nnn, indexFrame_setI s _⟩,
    ⟨_, exec_ldF s x, toNat_glyphAddr (s.readV x), indexFrame_setI s _⟩,
    fun _ => decodeWord_of_opField_A, ?glyphWord⟩
  case glyphWord =>
    intro w hop hkk
    rw [decodeWord_of_opField_F hop, hkk, decodeFamilyF_29]

end Sys2Proof.Machine
end

section
/-! CLS and the no-op words of family 0, 44_display.md R186 and R189. -/

namespace Sys2Proof.Machine

/-! ### The words of family 0 (30_encoding.md R95) -/

theorem decodeWord_of_opField_0 {w : Word} (h : opField w = 0x0) : decodeWord w = decodeFamily0 w := by
  simp only [decodeWord, h]

theorem decodeFamily0_of_ne {w : Word} (hcls : w ≠ 0x00E0) (hret : w ≠ 0x00EE) :
    decodeFamily0 w = .sys (nnnField w) := by
  rw [decodeFamily0, if_neg hcls, if_neg hret]

theorem eq_clsWord_of_decodeFamily0_eq_cls {w : Word} (h : decodeFamily0 w = .cls) : w = 0x00E0 := by
  by_contra hcls
  by_cases hret : w = 0x00EE
  · subst hret
    exact absurd h (by decide)
  · rw [decodeFamily0_of_ne hcls hret] at h
    cases h

/-! ### The other families with a second level hold no CLS (30_encoding.md R97 to R99) -/

theorem decodeFamily8_ne_cls (x y : RegIx) (n : Nibble) : decodeFamily8 x y n ≠ .cls := by
  unfold decodeFamily8
  split_ifs <;> simp

theorem decodeFamilyE_ne_cls (x : RegIx) (kk : Byte) : decodeFamilyE x kk ≠ .cls := by
  unfold decodeFamilyE
  split_ifs <;> simp

theorem decodeFamilyF_ne_cls (x : RegIx) (kk : Byte) : decodeFamilyF x kk ≠ .cls := by
  unfold decodeFamilyF
  split_ifs <;> simp

/-- A word that decodes to CLS is in family 0, since no other family has a CLS, and there it is the one word. -/
theorem decodeWord_eq_cls_iff (w : Word) : decodeWord w = .cls ↔ w = 0x00E0 := by
  refine ⟨?onlyWord, fun h => by subst h; decide⟩
  case onlyWord =>
    apply decodeWord_cases (P := fun i => i = .cls → w = 0x00E0)
    case h0 => exact fun _ => eq_clsWord_of_decodeFamily0_eq_cls
    case h8 => exact fun _ h => absurd h (decodeFamily8_ne_cls _ _ _)
    case hE => exact fun _ h => absurd h (decodeFamilyE_ne_cls _ _)
    case hF => exact fun _ h => absurd h (decodeFamilyF_ne_cls _ _)
    all_goals exact fun _ h => nomatch h

/-! ### The meanings of the two instructions -/

theorem exec_cls (s : State) : exec .cls s = .next (s.advance.setFb Grid.blank) := rfl

theorem exec_sys (s : State) (nnn : Addr12) : exec (.sys nnn) s = .next s.advance := rfl

/-! ### The obligation -/

/-- Settles O31: the dispatch leaves one word to CLS and the words of family 0 but the two defined ones to SYS,
which is the advance alone; CLS is the advance and one write of the blank grid. -/
theorem clearUnsetsEveryPixel : Obligations.ClearUnsetsEveryPixel := by
  refine ⟨decodeWord_eq_cls_iff, ?noopWords, fun s =>
    ⟨_, exec_cls s, Grid.pixel_blank, rfl, fun _ => rfl, fun _ => rfl, rfl⟩⟩
  case noopWords =>
    intro w hop hcls hret
    have hsys : decodeWord w = .sys (nnnField w) := by
      rw [decodeWord_of_opField_0 hop, decodeFamily0_of_ne hcls hret]
    exact ⟨hsys, fun s => by rw [hsys]; exact exec_sys s (nnnField w)⟩

end Sys2Proof.Machine
end

section
/-! The tick of the frame driver, 46_frame_driver_input_gate.md R216, R218, R219 and R221. -/

namespace Sys2Proof.Machine

/-! ### The tick among the events -/

theorem State.handle_tick (s : State) (speed : Nat) : s.handle (.tick speed) = s.tick speed := rfl

/-! ### The obligations -/

/-- Settles O42: a key wait is not the running state, so the tick is the paused one, which closes the gate. -/
theorem pausedTickOnlyStopsTheTone : Obligations.PausedTickOnlyStopsTheTone := by
  intro s speed x hspeed hfault hwait
  have hpaused : s.wait ≠ .running := by simp [hwait]
  calc s.handle (.tick speed)
      = s.tick speed := s.handle_tick speed
    _ = .next (s.setTone false) := s.tick_paused (Nat.one_le_iff_ne_zero.1 hspeed) hfault hpaused
    _ = .next { s with tone := false } := rfl

/-- Settles O43: the steps start from the state the two timer moves leave. -/
theorem tickMovesTimersBeforeSteps : Obligations.TickMovesTimersBeforeSteps := by
  intro s speed hspeed hfault hwait
  have hrun : s.handle (.tick speed) = runSteps speed s.tickDelay.tickSound :=
    (s.handle_tick speed).trans (s.tick_running (Nat.one_le_iff_ne_zero.1 hspeed) hfault hwait)
  exact ⟨s.tickDelay.tickSound, hrun, s.tickTimers_spec⟩

end Sys2Proof.Machine
end

section
/-! Encoding, 30_encoding.md: decoder and encoder are inverse, the dispatch agrees with the opcode table, and
the no-op words are those R100 lists. -/

namespace Sys2Proof

/-! ### The decoder reads back what the encoder writes -/

open Laws.EncodeDecode in
/-- The round trip of every instruction, assembled from the one of each constructor. -/
theorem decodeWord_encode : ∀ {i : Instr}, i.wellFormed = true → decodeWord (encode i) = i
  | .cls => cls | .ret => ret | .sys nnn => sys nnn | .jp nnn => jp nnn | .call nnn => call nnn
  | .seImm x kk => seImm x kk | .sneImm x kk => sneImm x kk | .seReg x y n => seReg x y n
  | .ldImm x kk => ldImm x kk | .addImm x kk => addImm x kk | .ldReg x y => ldReg x y
  | .or x y => or x y | .and x y => and x y | .xor x y => xor x y | .addReg x y => addReg x y
  | .sub x y => sub x y | .shr x y => shr x y | .subn x y => subn x y | .shl x y => shl x y
  | .nop8 x y n => nop8 x y n | .sneReg x y n => sneReg x y n | .ldI nnn => ldI nnn | .jpV0 nnn => jpV0 nnn
  | .rnd x kk => rnd x kk | .drw x y n => drw x y n | .skp x => skp x | .sknp x => sknp x
  | .nopE x kk => nopE x kk | .ldVxDt x => ldVxDt x | .ldVxK x => ldVxK x | .ldDtVx x => ldDtVx x
  | .ldStVx x => ldStVx x | .addI x => addI x | .ldF x => ldF x | .ldB x => ldB x | .ldMemVx x => ldMemVx x
  | .ldVxMem x => ldVxMem x | .nopF x kk => nopF x kk

/-! ### The encoder writes back the word the decoder reads, a well-formed one -/

/-- The instruction stands for the word: it is well formed and encodes to it. -/
def Instr.StandsFor (i : Instr) (w : Word) : Prop := i.wellFormed = true ∧ encode i = w

theorem decodeFamily0_standsFor {w : Word} (h : opField w = 0x0) : (decodeFamily0 w).StandsFor w := by
  unfold decodeFamily0
  split_ifs with hcls hret
  · exact ⟨rfl, hcls.symm⟩
  · exact ⟨rfl, hret.symm⟩
  · have hw : formNNN 0x0 (nnnField w) = w := h ▸ formNNN_fields w
    refine ⟨?_, hw⟩
    have h1 : nnnField w ≠ 0x0E0 := fun e => hcls (by rw [← hw, e]; decide)
    have h2 : nnnField w ≠ 0x0EE := fun e => hret (by rw [← hw, e]; decide)
    simpa [Instr.wellFormed, definedSub0] using ⟨h1, h2⟩

theorem decodeFamily8_standsFor {x y : RegIx} {n : Nibble} {w : Word} (h : formXYN 0x8 x y n = w) :
    (decodeFamily8 x y n).StandsFor w := by
  subst h
  unfold decodeFamily8
  fin_cases n <;> exact ⟨rfl, rfl⟩

theorem decodeFamilyE_standsFor {x : RegIx} {kk : Byte} {w : Word} (h : formXKK 0xE x kk = w) :
    (decodeFamilyE x kk).StandsFor w := by
  subst h
  unfold decodeFamilyE
  split_ifs with h1 h2
  · exact ⟨rfl, by rw [h1]; rfl⟩
  · exact ⟨rfl, by rw [h2]; rfl⟩
  · exact ⟨by simpa [Instr.wellFormed, definedSubE] using ⟨h1, h2⟩, rfl⟩

theorem decodeFamilyF_standsFor {x : RegIx} {kk : Byte} {w : Word} (h : formXKK 0xF x kk = w) :
    (decodeFamilyF x kk).StandsFor w := by
  subst h
  by_cases hd : definedSubF kk = true
  · simp only [definedSubF, List.contains_iff_mem, List.mem_cons, List.not_mem_nil, or_false] at hd
    obtain rfl | rfl | rfl | rfl | rfl | rfl | rfl | rfl | rfl := hd <;> exact ⟨rfl, rfl⟩
  · rw [Laws.EncodeDecode.decodeFamilyF_nop x kk (Bool.eq_false_iff.2 hd)]
    exact ⟨by simp [Instr.wellFormed, hd], rfl⟩

/-- Every word is the word of the well-formed instruction it decodes to. -/
theorem decodeWord_standsFor (w : Word) : (decodeWord w).StandsFor w := by
  have hNNN := formNNN_fields w
  have hXKK := formXKK_fields w
  have hXYN := formXYN_fields w
  apply decodeWord_cases (P := fun i => i.StandsFor w)
  case h0 => exact decodeFamily0_standsFor
  case h8 => intro h; rw [h] at hXYN; exact decodeFamily8_standsFor hXYN
  case hE => intro h; rw [h] at hXKK; exact decodeFamilyE_standsFor hXKK
  case hF => intro h; rw [h] at hXKK; exact decodeFamilyF_standsFor hXKK
  case h1 | h2 | hA | hB => intro h; rw [h] at hNNN; exact ⟨rfl, hNNN⟩
  case h3 | h4 | h6 | h7 | hC => intro h; rw [h] at hXKK; exact ⟨rfl, hXKK⟩
  case h5 | h9 | hD => intro h; rw [h] at hXYN; exact ⟨rfl, hXYN⟩

theorem encode_decodeWord (w : Word) : encode (decodeWord w) = w := (decodeWord_standsFor w).2

/-- The decoder of bytes reads back the bytes of a well-formed instruction. -/
theorem decode_encodeBytes {i : Instr} (h : i.wellFormed = true) : decode (encodeBytes i) = .ok (i, []) := by
  rw [encodeBytes, wordBytes, decode_cons_cons, joinBytes_bytes, decodeWord_encode h]

/-- Settles O1: on words the decoder and the encoder are inverse, and a word is its two bytes. -/
theorem decodeAndEncodeAreInverse : Obligations.DecodeAndEncodeAreInverse := by
  refine ⟨fun i => decode_encodeBytes, fun hi lo rest => ?_⟩
  obtain ⟨hwf, henc⟩ := decodeWord_standsFor (joinBytes hi lo)
  refine ⟨decodeWord (joinBytes hi lo), decode_cons_cons hi lo rest, hwf, ?_⟩
  rw [encodeBytes, henc, wordBytes, highByte_joinBytes, lowByte_joinBytes]

/-! ### The opcode table -/

/-- A row that fixes the whole word, by the value of the word. -/
theorem selects_FFFF_toNat (m : String) (v w : Word) :
    (OpcodeRow.mk m 0xFFFF v).selects w = decide (w.toNat = v.toNat) := by
  rw [selects_FFFF, Bool.decide_congr BitVec.toNat_inj]

/-- A row that fixes the high and the low nibble, each nibble for itself. -/
theorem selects_F00F_nibbles (m : String) (v w : Word) :
    (OpcodeRow.mk m 0xF00F v).selects w =
      (decide ((opField w).val = v.toNat / 4096) && decide ((nField w).val = v.toNat % 4096)) := by
  rw [selects_F00F, ← Bool.decide_and]
  exact Bool.decide_congr (by omega)

/-- A row that fixes the high nibble and the low byte, each for itself. -/
theorem selects_F0FF_nibble_byte (m : String) (v w : Word) :
    (OpcodeRow.mk m 0xF0FF v).selects w =
      (decide ((opField w).val = v.toNat / 4096) && decide ((kkField w).toNat = v.toNat % 4096)) := by
  rw [selects_F0FF, ← Bool.decide_and]
  exact Bool.decide_congr (by omega)

/-- The two words with rows of their own are in family 0. -/
theorem toNat_ne_of_opField_ne_zero {w : Word} (h : opField w ≠ 0) : w.toNat ≠ 0x00E0 ∧ w.toNat ≠ 0x00EE := by
  rw [ne_eq, Fin.ext_iff, opField_val] at h
  simp at h
  omega

/-- The two-level dispatch and the table, family by family: the rows before the one of the decoded instruction
differ from the word in the high nibble, or in the nibble or byte the second level looks at. -/
theorem mnemonic_firstRow (w : Word) : (firstRow w).map OpcodeRow.mnemonic = some (decodeWord w).mnemonic := by
  simp only [firstRow, opcodeRows, opcodeRowsLow, opcodeRows8, opcodeRowsHigh, opcodeRowsF, List.cons_append,
    List.nil_append, List.find?_cons, selects_F000, selects_F00F_nibbles, selects_F0FF_nibble_byte,
    selects_FFFF_toNat]
  apply decodeWord_cases (P := fun i => _ = some i.mnemonic)
  case h0 =>
    intro h
    simp only [decodeFamily0, ← BitVec.toNat_inj]
    split_ifs with hcls hret <;> simp_all [Instr.mnemonic]
  case h8 =>
    intro h
    have h0 := toNat_ne_of_opField_ne_zero (w := w) (by simp [h])
    unfold decodeFamily8
    generalize nField w = n
    fin_cases n <;> simp [h, h0, Instr.mnemonic]
  case hE =>
    intro h
    have h0 := toNat_ne_of_opField_ne_zero (w := w) (by simp [h])
    simp only [decodeFamilyE, ← BitVec.toNat_inj]
    split_ifs <;> simp_all [Instr.mnemonic]
  case hF =>
    intro h
    have h0 := toNat_ne_of_opField_ne_zero (w := w) (by simp [h])
    simp only [decodeFamilyF, ← BitVec.toNat_inj]
    split_ifs <;> simp_all [Instr.mnemonic]
  all_goals
    intro h
    have h0 := toNat_ne_of_opField_ne_zero (w := w) (by simp [h])
    simp [h, h0, Instr.mnemonic]

/-- Settles O2, by the dispatch on the high nibble. -/
theorem decoderTakesTheFirstMatchingRow : Obligations.DecoderTakesTheFirstMatchingRow := mnemonic_firstRow

/-! ### The no-op words -/

/-- The instruction belongs to one of the four no-op rows (30_encoding.md R100). -/
def Instr.IsNoOp (i : Instr) : Prop :=
  (∃ nnn, i = .sys nnn) ∨ (∃ x y n, i = .nop8 x y n) ∨ (∃ x kk, i = .nopE x kk) ∨ (∃ x kk, i = .nopF x kk)

theorem isNoOp_decodeFamily0 (w : Word) : (decodeFamily0 w).IsNoOp ↔ w.toNat ≠ 0x00E0 ∧ w.toNat ≠ 0x00EE := by
  simp only [decodeFamily0, ← BitVec.toNat_inj]
  split_ifs <;> simp_all [Instr.IsNoOp]

theorem isNoOp_decodeFamily8 (x y : RegIx) (n : Nibble) :
    (decodeFamily8 x y n).IsNoOp ↔ n.val ∈ [0x8, 0x9, 0xA, 0xB, 0xC, 0xD, 0xF] := by
  unfold decodeFamily8
  fin_cases n <;> simp [Instr.IsNoOp]

theorem isNoOp_decodeFamilyE (x : RegIx) (kk : Byte) :
    (decodeFamilyE x kk).IsNoOp ↔ kk.toNat ∉ [0x9E, 0xA1] := by
  simp only [decodeFamilyE, ← BitVec.toNat_inj]
  split_ifs <;> simp_all [Instr.IsNoOp]

theorem isNoOp_decodeFamilyF (x : RegIx) (kk : Byte) :
    (decodeFamilyF x kk).IsNoOp ↔ kk.toNat ∉ [0x07, 0x0A, 0x15, 0x18, 0x1E, 0x29, 0x33, 0x55, 0x65] := by
  simp only [decodeFamilyF, ← BitVec.toNat_inj]
  split_ifs <;> simp_all [Instr.IsNoOp]

/-- Settles O10: the four families with a no-op row have the words their second level leaves, and no other
family has one. -/
theorem noOpWordsAreThoseListed : Obligations.NoOpWordsAreThoseListed := by
  intro w
  have hop : ∀ {k : Nibble}, opField w = k → w.toNat / 4096 = k.val := fun h => by rw [← opField_val, h]
  rw [← nField_val, ← kkField_toNat]
  apply decodeWord_cases (P := fun i => i.IsNoOp ↔ _)
  case h0 => intro h; simp [hop h, isNoOp_decodeFamily0]
  case h8 => intro h; simp only [hop h, isNoOp_decodeFamily8]; simp
  case hE => intro h; simp only [hop h, isNoOp_decodeFamilyE]; simp
  case hF => intro h; simp only [hop h, isNoOp_decodeFamilyF]; simp
  all_goals intro h; simp [hop h, Instr.IsNoOp]

/-! ### Words written out -/

/-- Settles O3: the decoder is run on the words. -/
theorem wordsOfEveryFamilyDecode : Obligations.WordsOfEveryFamilyDecode := by
  unfold Obligations.WordsOfEveryFamilyDecode
  decide

end Sys2Proof
end

section
/-! What one instruction can do, said once: it latches its fault and writes nothing else, or it completes and
writes the components named for it. The rules over all instructions follow (10_state.md, 60_exceptions.md). -/

namespace Sys2Proof.Machine

/-! ### The faulting case (60_exceptions.md R246, R252) -/

/-- The address the range faults record fits the 17 bits of the latch. -/
theorem toNat_rangeInfo (w : Word) : (BitVec.ofNat 17 (max w.toNat 4096)).toNat = max w.toNat 4096 := by
  have := w.isLt
  rw [BitVec.toNat_ofNat]
  exact Nat.mod_eq_of_lt (by omega)

/-- The key index the key faults record fits the 17 bits of the latch. -/
theorem toNat_keyInfo (b : Byte) : (BitVec.ofNat 17 b.toNat).toNat = b.toNat := by
  have := b.isLt
  rw [BitVec.toNat_ofNat]
  exact Nat.mod_eq_of_lt (by omega)

/-- Under its condition an instruction writes the latch alone, with a record that says so. -/
theorem exec_of_faultCondition {i : Instr} {s : State} (h : FaultCondition i s) :
    ∃ r, exec i s = .next { s with fault := some r } ∧ r.pc = s.pc ∧ r.instr = encode i ∧
      r.explains s = true := by
  cases i
  case call nnn =>
    have hsp : s.sp.val = 16 := h
    refine ⟨_, exec_call_of_full s nnn h, rfl, rfl, ?_⟩
    simp [FaultRecord.explains, decodeWord_encode (i := .call nnn) rfl, hsp]
  case ret =>
    have hsp : s.sp.val = 0 := h
    refine ⟨_, exec_ret_of_empty s h, rfl, rfl, ?_⟩
    simp [FaultRecord.explains, encode, hsp]
  case drw x y n =>
    have hc : 1 ≤ n.val ∧ 4095 < s.i.toNat + n.val - 1 := h
    refine ⟨_, exec_drw_of_out s x y n hc.1 hc.2, rfl, rfl, ?_⟩
    simp only [FaultRecord.explains, toNat_rangeInfo, decodeWord_encode (i := .drw x y n) rfl]
    simpa using hc
  case ldVxMem x =>
    have hc : 4095 < s.i.toNat + x.val := h
    refine ⟨_, exec_ldVxMem_of_out s x hc, rfl, rfl, ?_⟩
    simp only [FaultRecord.explains, toNat_rangeInfo, decodeWord_encode (i := .ldVxMem x) rfl]
    simpa using hc
  case ldMemVx x =>
    have hc : 4095 < s.i.toNat + x.val := h
    refine ⟨_, exec_ldMemVx_of_out s x hc, rfl, rfl, ?_⟩
    simp only [FaultRecord.explains, toNat_rangeInfo, decodeWord_encode (i := .ldMemVx x) rfl]
    simpa using hc
  case ldB x =>
    have hc : 4095 < s.i.toNat + 2 := h
    refine ⟨_, exec_ldB_of_out s x hc, rfl, rfl, ?_⟩
    simp only [FaultRecord.explains, toNat_rangeInfo, decodeWord_encode (i := .ldB x) rfl]
    simpa using hc
  case skp x =>
    have hc : 15 < (s.readV x).toNat := h
    refine ⟨_, exec_skp_of_out s x hc, rfl, rfl, ?_⟩
    simp only [FaultRecord.explains, toNat_keyInfo, decodeWord_encode (i := .skp x) rfl]
    simpa using hc
  case sknp x =>
    have hc : 15 < (s.readV x).toNat := h
    refine ⟨_, exec_sknp_of_out s x hc, rfl, rfl, ?_⟩
    simp only [FaultRecord.explains, toNat_keyInfo, decodeWord_encode (i := .sknp x) rfl]
    simpa using hc
  all_goals exact h.elim

/-! ### The completing case -/

/-- `t` is `s` but for the components the instruction writes when it completes. -/
def ComponentFrame (i : Instr) (s t : State) : Prop :=
  match i with
  | .sys _ | .nop8 _ _ _ | .nopE _ _ | .nopF _ _ | .jp _ | .jpV0 _ | .seImm _ _ | .sneImm _ _ | .seReg _ _ _
  | .sneReg _ _ _ | .skp _ | .sknp _ => t = { s with pc := t.pc }
  | .ldImm _ _ | .addImm _ _ | .ldReg _ _ | .or _ _ | .and _ _ | .xor _ _ | .addReg _ _ | .sub _ _ | .shr _ _
  | .subn _ _ | .shl _ _ | .ldVxDt _ | .ldVxMem _ => t = { s with v := t.v, pc := t.pc }
  | .rnd _ _ => t = { s with v := t.v, pc := t.pc, draws := t.draws }
  | .cls => t = { s with fb := t.fb, pc := t.pc }
  | .drw _ _ _ => t = { s with fb := t.fb, v := t.v, pc := t.pc }
  | .call _ => t = { s with stack := t.stack, sp := t.sp, pc := t.pc }
  | .ret => t = { s with sp := t.sp, pc := t.pc }
  | .ldI _ | .addI _ | .ldF _ => t = { s with i := t.i, pc := t.pc }
  | .ldB _ | .ldMemVx _ => t = { s with mem := t.mem, pc := t.pc }
  | .ldDtVx _ => t = { s with dt := t.dt, pc := t.pc }
  | .ldStVx _ => t = { s with st := t.st, pc := t.pc }
  | .ldVxK x => t = { s with wait := .awaitingKey x, pc := t.pc }

/-- Where `PC` is after the instruction completed (41_flow.md R135 to R144). -/
def NextPc (i : Instr) (s : State) (pc : Word) : Prop :=
  match i with
  | .jp nnn | .call nnn => pc = addrWord nnn
  | .jpV0 nnn => pc = addrWord nnn + byteWord (s.readV 0)
  | .ret => ∃ j : Fin 16, j.val + 1 = s.sp.val ∧ pc = s.stack[j]
  | .seImm _ _ | .sneImm _ _ | .seReg _ _ _ | .sneReg _ _ _ | .skp _ | .sknp _ => pc = s.pc + 2 ∨ pc = s.pc + 4
  | .cls | .sys _ | .ldImm _ _ | .addImm _ _ | .ldReg _ _ | .or _ _ | .and _ _ | .xor _ _ | .addReg _ _ | .sub _ _
  | .shr _ _ | .subn _ _ | .shl _ _ | .nop8 _ _ _ | .ldI _ | .rnd _ _ | .drw _ _ _ | .nopE _ _ | .ldVxDt _
  | .ldVxK _ | .ldDtVx _ | .ldStVx _ | .addI _ | .ldF _ | .ldB _ | .ldMemVx _ | .ldVxMem _ | .nopF _ _ =>
    pc = s.pc + 2

/-- `t` is `s` after the instruction completed: but for `PC` and the components and registers it may write. -/
structure CompletionFrame (i : Instr) (s t : State) : Prop where
  components : ComponentFrame i s t
  target : NextPc i s t.pc
  registers : ∀ j, ¬ MayWriteReg i j → t.readV j = s.readV j

/-- A byte that is no index out of range names a key. -/
theorem exists_key_of_not_lt {b : Byte} (h : ¬ 15 < b.toNat) : ∃ k : KeyCode, b.toNat = k.val :=
  ⟨⟨b.toNat, by omega⟩, rfl⟩

/-- A conditional skip goes to one of two addresses and writes no register. -/
theorem skipIf_target_registers (s : State) (c : Bool) :
    ((s.advance.skipIf c).pc = s.pc + 2 ∨ (s.advance.skipIf c).pc = s.pc + 4) ∧
      ∀ j, (s.advance.skipIf c).readV j = s.readV j := by
  refine ⟨?_, State.readV_congr (by simp)⟩
  rw [State.pc_advance_skipIf]
  cases c
  · exact .inl rfl
  · exact .inr rfl

/-- A register above the ones a block load loads stays. -/
theorem readV_loadRegs_above (s t : State) (x : RegIx) (a : Nat) {j : RegIx} (h : ¬ j.val ≤ x.val) :
    (s.loadRegs (t.readBytes a (x.val + 1))).readV j = s.readV j := by
  rw [State.readV_loadRegs, State.readBytes, Memory.getElem?_readBytes, if_neg (by omega)]
  rfl

/-- Outside its condition an instruction completes within its frame. -/
theorem exec_of_not_faultCondition {i : Instr} {s : State} (h : ¬ FaultCondition i s) :
    ∃ t, exec i s = .next t ∧ CompletionFrame i s t := by
  cases i
  case call nnn =>
    have hsp : ¬ s.sp.val = 16 := h
    exact ⟨_, exec_call_of_lt s nnn (by omega), rfl, rfl, fun _ _ => rfl⟩
  case ret =>
    have hsp : ¬ s.sp.val = 0 := h
    exact ⟨_, exec_ret_of_pos s (by omega), rfl, ⟨⟨s.sp.val - 1, by omega⟩, by simp; omega, rfl⟩, fun _ _ => rfl⟩
  case ldB x => exact ⟨_, exec_ldB_of_fits s x (Nat.not_lt.1 h), rfl, rfl, fun _ _ => rfl⟩
  case ldMemVx x => exact ⟨_, exec_ldMemVx_of_fits s x (Nat.not_lt.1 h), rfl, rfl, fun _ _ => rfl⟩
  case ldVxMem x =>
    exact ⟨_, exec_ldVxMem_of_fits s x (Nat.not_lt.1 h), rfl, rfl, fun _ => readV_loadRegs_above _ s x _⟩
  case drw x y n =>
    have hn : ¬ (1 ≤ n.val ∧ 4095 < s.i.toNat + n.val - 1) := h
    exact ⟨_, exec_drw_of_fits s x y n (by omega), rfl, rfl, fun _ => State.readV_writeV_of_ne _ _⟩
  case skp x =>
    obtain ⟨k, hk⟩ := exists_key_of_not_lt h
    obtain ⟨hpc, hreg⟩ := skipIf_target_registers s (s.readKey k)
    exact ⟨_, exec_skp_of_key s x k hk, (pcFrame_skipIf s _).2, hpc, fun j _ => hreg j⟩
  case sknp x =>
    obtain ⟨k, hk⟩ := exists_key_of_not_lt h
    obtain ⟨hpc, hreg⟩ := skipIf_target_registers s (!s.readKey k)
    exact ⟨_, exec_sknp_of_key s x k hk, (pcFrame_skipIf s _).2, hpc, fun j _ => hreg j⟩
  case seImm | sneImm | seReg | sneReg =>
    exact ⟨_, rfl, (pcFrame_skipIf s _).2, (skipIf_target_registers s _).1,
      fun j _ => (skipIf_target_registers s _).2 j⟩
  case ldImm x _ | addImm x _ | ldReg x _ | or x _ | and x _ | xor x _ | ldVxDt x =>
    exact ⟨_, rfl, rfl, rfl, (regFrame_writeV s x _).1⟩
  case rnd x kk => exact ⟨_, rfl, rfl, rfl, fun _ => State.readV_writeV_of_ne _ _⟩
  case addReg x _ | sub x _ | shr x _ | subn x _ | shl x _ =>
    exact ⟨_, rfl, rfl, rfl, (regFrame_writeFlagThenV s x _ _).1⟩
  all_goals exact ⟨_, rfl, rfl, rfl, fun _ _ => rfl⟩

/-- All that an instruction can do. -/
theorem exec_cases {i : Instr} {s t : State} (h : exec i s = .next t) :
    (FaultCondition i s ∧ ∃ r, t = { s with fault := some r } ∧ r.pc = s.pc ∧ r.instr = encode i ∧
      r.explains s = true) ∨
    (¬ FaultCondition i s ∧ CompletionFrame i s t) := by
  by_cases hc : FaultCondition i s
  · obtain ⟨r, hr, hrest⟩ := exec_of_faultCondition hc
    exact .inl ⟨hc, r, Outcome.next_inj.1 (h.symm.trans hr), hrest⟩
  · obtain ⟨u, hu, hframe⟩ := exec_of_not_faultCondition hc
    exact .inr ⟨hc, Outcome.next_inj.1 (hu.symm.trans h) ▸ hframe⟩

/-- No completing instruction writes the latch, the keys, the tone gate, the schedule or the reply. -/
theorem CompletionFrame.unwritten {i : Instr} {s t : State} (h : CompletionFrame i s t) :
    t.fault = s.fault ∧ t.key = s.key ∧ t.tone = s.tone ∧ t.events = s.events ∧ t.loadReply = s.loadReply := by
  have hc := h.components
  cases i <;> simp only [ComponentFrame] at hc <;> rw [hc] <;> exact ⟨rfl, rfl, rfl, rfl, rfl⟩

/-- The components a completing instruction writes belong to the instructions the spec names for them. -/
theorem CompletionFrame.writers {i : Instr} {s t : State} (h : CompletionFrame i s t) :
    (t.mem ≠ s.mem → ∃ x, i = .ldB x ∨ i = .ldMemVx x) ∧
    (t.fb ≠ s.fb → i = .cls ∨ ∃ x y n, i = .drw x y n) ∧
    (t.stack ≠ s.stack → ∃ nnn, i = .call nnn) ∧
    (t.sp ≠ s.sp → i = .ret ∨ ∃ nnn, i = .call nnn) ∧
    (t.i ≠ s.i → (∃ nnn, i = .ldI nnn) ∨ ∃ x, i = .addI x ∨ i = .ldF x) ∧
    (t.dt ≠ s.dt → ∃ x, i = .ldDtVx x) ∧
    (t.st ≠ s.st → ∃ x, i = .ldStVx x) ∧
    (t.wait ≠ s.wait → ∃ x, i = .ldVxK x ∧ t.wait = .awaitingKey x) ∧
    (t.draws ≠ s.draws → ∃ x kk, i = .rnd x kk) := by
  have hc := h.components
  cases i <;> simp only [ComponentFrame] at hc <;> rw [hc] <;> simp

/-! ### The obligations -/

/-- Settles O38: a fault writes the latch, and a completing instruction what its frame names. -/
theorem onlyNamedInstructionsWrite : Obligations.OnlyNamedInstructionsWrite := by
  intro i s t h
  rcases exec_cases h with ⟨-, r, rfl, -⟩ | ⟨-, hframe⟩
  · simp [State.readV]
  · obtain ⟨hmem, hfb, hstack, hsp, hi, hdt, hst, hwait, hdraws⟩ := hframe.writers
    obtain ⟨-, hkey, htone, hevents, hreply⟩ := hframe.unwritten
    exact ⟨hmem, hfb, hstack, hsp, hi, hdt, hst, hwait, hdraws,
      fun j => not_imp_comm.1 (hframe.registers j), hkey, htone, hevents, hreply⟩

theorem flagByte_zero_or_one (b : Bool) : flagByte b = 0 ∨ flagByte b = 1 := by
  cases b
  · exact .inl rfl
  · exact .inr rfl

/-- The five flag-setting arithmetic instructions are one write of a flag and a result. -/
theorem exec_flagged {i : Instr} {x y : RegIx} (s : State)
    (h : i = .addReg x y ∨ i = .sub x y ∨ i = .shr x y ∨ i = .subn x y ∨ i = .shl x y) :
    ∃ b res, exec i s = .next (s.advance.writeFlagThenV x (flagByte b) res) := by
  obtain rfl | rfl | rfl | rfl | rfl := h <;> exact ⟨_, _, rfl⟩

/-- Settles O39: the flag writes are of `flagByte`, and the frame keeps VF from every other instruction. -/
theorem flagRegisterContract : Obligations.FlagRegisterContract := by
  intro i s t h
  refine ⟨fun x y hx hi => ?alu, fun x y n hi hc => ?drw, fun hvf => ?other⟩
  case alu =>
    obtain ⟨b, res, hexec⟩ := exec_flagged s hi
    rw [← Outcome.next_inj.1 (hexec.symm.trans h), State.readVF_writeFlagThenV _ _ _ hx]
    exact flagByte_zero_or_one b
  case drw =>
    subst hi
    have hn : ¬ (1 ≤ n.val ∧ 4095 < s.i.toNat + n.val - 1) := hc
    rw [exec_drw_of_fits s x y n (by omega), Outcome.next_inj] at h
    rw [← h, State.readV_writeV_self]
    exact flagByte_zero_or_one _
  case other =>
    rcases exec_cases h with ⟨-, r, rfl, -⟩ | ⟨-, hframe⟩
    · rfl
    · exact hframe.registers 0xF hvf

/-- Settles O40: under the condition the latch alone is written, else the latch is none the frame names. -/
theorem faultsArePreciseAndExactlyThoseListed : Obligations.FaultsArePreciseAndExactlyThoseListed := by
  intro i s hnone
  obtain ⟨t, ht⟩ := exec_completes i s
  refine ⟨t, ht, fun hc => ?faults, fun hc => ?completes⟩
  case faults =>
    obtain ⟨-, hfault⟩ | ⟨hn, -⟩ := exec_cases ht
    · exact hfault
    · exact absurd hc hn
  case completes =>
    obtain ⟨hy, -⟩ | ⟨-, hframe⟩ := exec_cases ht
    · exact absurd hy hc
    · exact hframe.unwritten.1.trans hnone

end Sys2Proof.Machine
end

section
/-! The step, 40_fetch_step.md: what it fetches and runs, when it is gated, and what it leaves alone. -/

namespace Sys2Proof.Machine

/-! ### What a step runs -/

/-- With the two bytes at `PC` decoding to an instruction, a step that is not gated is its execution. -/
theorem State.instrStep_of_decode {s : State} {i : Instr} (hfault : s.fault = none) (hwait : s.wait = .running)
    (hpc : s.pc.toNat ≤ 4094)
    (hdec : decode [s.readByte s.pc.toNat, s.readByte (s.pc.toNat + 1)] = .ok (i, [])) :
    s.instrStep = exec i s := by
  have hi : decodeWord (joinBytes (s.readByte s.pc.toNat) (s.readByte (s.pc.toNat + 1))) = i := by
    rw [decode_cons_cons] at hdec
    injection hdec with hdec
    exact congrArg Prod.fst hdec
  rw [s.instrStep_fetched (s.canExecute_iff.2 ⟨hfault, hwait⟩) (s.fetch?_of_le hpc), hi]

theorem step_of_step_event {s : State} {rest : List Event} (h : s.events = .step :: rest) :
    step s = { s with events := rest }.instrStep :=
  step_scheduled s h

/-- Settles O4: with nothing scheduled, and with a step event first, the step is the instruction step. -/
theorem stepRunsTheDecodedInstruction : Obligations.StepRunsTheDecodedInstruction := by
  intro s i hfault hwait hpc hdec
  refine ⟨fun h => ?_, fun rest h => ?_⟩
  · rw [step_unscheduled s h, State.instrStep_of_decode hfault hwait hpc hdec]
  · rw [step_of_step_event h]
    exact State.instrStep_of_decode hfault hwait hpc hdec

/-- Settles O5: the decoder reads back the encoder's bytes. -/
theorem stepRunsAStoredInstruction : Obligations.StepRunsAStoredInstruction := by
  intro s i hfault hwait hevents hpc hwf hbytes
  rw [step_unscheduled s hevents]
  exact State.instrStep_of_decode hfault hwait hpc (hbytes ▸ decode_encodeBytes hwf)

/-- Settles O6: outside memory there is no word to fetch. -/
theorem fetchOutsideMemoryFaults : Obligations.FetchOutsideMemoryFaults := by
  intro s hfault hwait hevents hpc
  rw [step_unscheduled s hevents,
    s.instrStep_unfetched (s.canExecute_iff.2 ⟨hfault, hwait⟩) (s.fetch?_eq_none.2 hpc), State.latchFault,
    BitVec.ofNat_toNat]

/-! ### The gates -/

theorem State.canExecute_eq_false {s : State} (h : s.fault ≠ none ∨ s.wait ≠ .running) :
    s.canExecute = false := by
  rw [← Bool.not_eq_true, s.canExecute_iff, not_and_or]
  exact h

/-- Settles O7: each of the two gates keeps the machine from executing. -/
theorem gatedStepChangesNothing : Obligations.GatedStepChangesNothing := by
  intro s hgate
  refine ⟨fun h => ?_, fun rest h => ?_⟩
  · rw [step_unscheduled s h, s.instrStep_gated (State.canExecute_eq_false hgate)]
  · rw [step_of_step_event h]
    exact State.instrStep_gated _ (State.canExecute_eq_false hgate)

/-! ### Timers, tone and keys -/

/-- An instruction leaves `DT` unless it is LD DT,Vx, which moves the register there. -/
theorem exec_dt {i : Instr} {s t : State} (h : exec i s = .next t) :
    t.dt = s.dt ∨ ∃ x, i = .ldDtVx x ∧ t.dt = s.readV x := by
  by_cases hdt : t.dt = s.dt
  · exact .inl hdt
  · obtain ⟨-, -, -, -, -, hw, -⟩ := onlyNamedInstructionsWrite i s t h
    obtain ⟨x, rfl⟩ := hw hdt
    exact .inr ⟨x, rfl, congrArg State.dt (Outcome.next_inj.1 h).symm⟩

/-- An instruction leaves `ST` unless it is LD ST,Vx, which moves the register there. -/
theorem exec_st {i : Instr} {s t : State} (h : exec i s = .next t) :
    t.st = s.st ∨ ∃ x, i = .ldStVx x ∧ t.st = s.readV x := by
  by_cases hst : t.st = s.st
  · exact .inl hst
  · obtain ⟨-, -, -, -, -, -, hw, -⟩ := onlyNamedInstructionsWrite i s t h
    obtain ⟨x, rfl⟩ := hw hst
    exact .inr ⟨x, rfl, congrArg State.st (Outcome.next_inj.1 h).symm⟩

/-- Settles O8: a gated step and a fetch fault write no timer, and of the instructions only the two do. -/
theorem stepsLeaveTimersToneAndKeys : Obligations.StepsLeaveTimersToneAndKeys := by
  intro s t h
  obtain ⟨-, rfl⟩ | ⟨-, -, rfl⟩ | ⟨-, -, w, hw, hexec⟩ := s.instrStep_cases h
  · exact ⟨rfl, rfl, .inl rfl, .inl rfl⟩
  · exact ⟨rfl, rfl, .inl rfl, .inl rfl⟩
  · obtain ⟨-, -, -, -, -, -, -, -, -, -, hkey, htone, -⟩ := onlyNamedInstructionsWrite _ s t hexec
    refine ⟨htone, hkey, ?_, ?_⟩
    · exact (exec_dt hexec).imp_right fun ⟨x, hx, hv⟩ => ⟨w, x, hw, hx, hv⟩
    · exact (exec_st hexec).imp_right fun ⟨x, hx, hv⟩ => ⟨w, x, hw, hx, hv⟩

/-! ### The schedule -/

/-- Settles O41: the schedule's first event, or a step when there is none. -/
theorem scheduledEventIsHandled : Obligations.ScheduledEventIsHandled :=
  fun s => ⟨step_unscheduled s, fun _ _ => step_scheduled s⟩

/-- Settles O46: the tick is handled, and a tick of speed 0 is the model's own fault. -/
theorem zeroSpeedTickHasNoMove : Obligations.ZeroSpeedTickHasNoMove := by
  intro s rest h
  rw [step_scheduled s h, State.handle_tick]
  exact if_pos rfl

end Sys2Proof.Machine
end

section
/-! Control transfer, 41_flow.md: the no-ops, the skips on two registers, CALL and RET. -/

namespace Sys2Proof.Machine

/-- Settles O9: each of the four rows is the advance. -/
theorem noOpsOnlyAdvance : Obligations.NoOpsOnlyAdvance := by
  rintro s i (⟨nnn, rfl⟩ | ⟨x, y, n, rfl⟩ | ⟨x, kk, rfl⟩ | ⟨x, kk, rfl⟩)
  all_goals exact ⟨s.advance, rfl, rfl, fun _ => rfl, rfl⟩

theorem exec_seReg (s : State) (x y : RegIx) (n : Nibble) :
    exec (.seReg x y n) s = .next (s.advance.skipIf (s.readV x == s.readV y)) := rfl

theorem exec_sneReg (s : State) (x y : RegIx) (n : Nibble) :
    exec (.sneReg x y n) s = .next (s.advance.skipIf (s.readV x != s.readV y)) := rfl

/-- Settles O13: both are the conditional skip, on equality and on inequality of two registers. -/
theorem registerSkips : Obligations.RegisterSkips := fun s x y n =>
  ⟨⟨_, exec_seReg s x y n, s.pc_skipIf_beq _ _, pcFrame_skipIf s _⟩,
    ⟨_, exec_sneReg s x y n, s.pc_skipIf_bne _ _, pcFrame_skipIf s _⟩⟩

/-- Settles O14: the push writes the entry at `SP` and no other. -/
theorem callPushesAndJumps : Obligations.CallPushesAndJumps := by
  intro s nnn hsp
  refine ⟨_, exec_call_of_lt s nnn hsp, toNat_addrWord nnn, rfl, fun j => ?_, fun _ => rfl, rfl⟩
  simp only [Fin.getElem_fin, Vector.getElem_set, eq_comm]

/-- Settles O15: the pop yields the entry below `SP`. -/
theorem retPops : Obligations.RetPops := by
  intro s j hsp
  have hj : s.sp.val - 1 = j.val := by omega
  refine ⟨_, exec_ret_of_pos s (by omega), hj, ?_, fun _ => rfl, rfl⟩
  simp only [hj, Fin.getElem_fin]

/-- Settles O16: RET pops the entry CALL pushed. -/
theorem callThenRetReturns : Obligations.CallThenRetReturns := by
  intro s nnn hsp
  refine ⟨_, _, exec_call_of_lt s nnn hsp, exec_ret_of_pos _ (Nat.succ_pos _), ?_, rfl, fun j hj => ?_, rfl⟩
  · exact Vector.getElem_set_self hsp
  · simp only [Fin.getElem_fin, Vector.getElem_set_ne _ _ hj.symm]

/-- Settles O17: the two stack faults latch with 16 and 0. -/
theorem stackFaultsLatch : Obligations.StackFaultsLatch := fun s nnn =>
  ⟨exec_call_of_full s nnn, exec_ret_of_empty s⟩

end Sys2Proof.Machine
end

section
/-! Logic, arithmetic with a flag, shifts and the random byte, 42_alu.md R153 to R163. -/

namespace Sys2Proof.Machine

/-! ### The meanings -/

theorem exec_or (s : State) (x y : RegIx) :
    exec (.or x y) s = .next (s.advance.writeV x (s.readV x ||| s.readV y)) := rfl

theorem exec_and (s : State) (x y : RegIx) :
    exec (.and x y) s = .next (s.advance.writeV x (s.readV x &&& s.readV y)) := rfl

theorem exec_xor (s : State) (x y : RegIx) :
    exec (.xor x y) s = .next (s.advance.writeV x (s.readV x ^^^ s.readV y)) := rfl

theorem exec_addReg (s : State) (x y : RegIx) :
    exec (.addReg x y) s = .next
      (s.advance.writeFlagThenV x (carryFlag (s.readV x) (s.readV y)) (s.readV x + s.readV y)) := rfl

theorem exec_sub (s : State) (x y : RegIx) :
    exec (.sub x y) s = .next
      (s.advance.writeFlagThenV x (noBorrowFlag (s.readV x) (s.readV y)) (s.readV x - s.readV y)) := rfl

theorem exec_subn (s : State) (x y : RegIx) :
    exec (.subn x y) s = .next
      (s.advance.writeFlagThenV x (noBorrowFlag (s.readV y) (s.readV x)) (s.readV y - s.readV x)) := rfl

theorem exec_shr (s : State) (x y : RegIx) :
    exec (.shr x y) s = .next
      (s.advance.writeFlagThenV x (shiftRightFlag (s.readV x)) (s.readV x >>> 1)) := rfl

theorem exec_shl (s : State) (x y : RegIx) :
    exec (.shl x y) s = .next
      (s.advance.writeFlagThenV x (shiftLeftFlag (s.readV x)) (s.readV x <<< 1)) := rfl

theorem exec_rnd (s : State) (x : RegIx) (kk : Byte) :
    exec (.rnd x kk) s = .next (s.advance.drawRandom.2.writeV x (Config.randomByte s.draws &&& kk)) := rfl

/-! ### Logic -/

/-- Settles O19: each of the three is one register write, of a word whose bits the operation computes. -/
theorem logicBitByBit : Obligations.LogicBitByBit := by
  intro s x y
  refine ⟨⟨_, exec_or s x y, regFrame_writeV s x _, fun b _ => ?_⟩,
    ⟨_, exec_and s x y, regFrame_writeV s x _, fun b _ => ?_⟩,
    ⟨_, exec_xor s x y, regFrame_writeV s x _, fun b _ => ?_⟩⟩
  · rw [State.readV_writeV_self, BitVec.getLsbD_or]
  · rw [State.readV_writeV_self, BitVec.getLsbD_and]
  · rw [State.readV_writeV_self, BitVec.getLsbD_xor]

/-! ### Flags as numbers -/

theorem toNat_flagByte (b : Bool) : (flagByte b).toNat = if b = true then 1 else 0 := by
  cases b <;> rfl

theorem toNat_carryFlag (a b : Byte) : (carryFlag a b).toNat = if 255 < a.toNat + b.toNat then 1 else 0 := by
  simp only [carryFlag, toNat_flagByte, decide_eq_true_eq]

theorem toNat_noBorrowFlag (a b : Byte) : (noBorrowFlag a b).toNat = if b.toNat ≤ a.toNat then 1 else 0 := by
  simp only [noBorrowFlag, toNat_flagByte, decide_eq_true_eq]

/-- The bit a right shift drops is the value's parity. -/
theorem toNat_shiftRightFlag (a : Byte) : (shiftRightFlag a).toNat = a.toNat % 2 := by
  rw [shiftRightFlag, toNat_flagByte, BitVec.getLsbD, Nat.testBit_zero]
  split <;> simp_all

/-- The bit a left shift drops is the value's top bit. -/
theorem toNat_shiftLeftFlag (a : Byte) : (shiftLeftFlag a).toNat = a.toNat / 128 := by
  have := a.isLt
  rw [shiftLeftFlag, toNat_flagByte, BitVec.getLsbD, Nat.testBit_eq_decide_div_mod_eq]
  simp only [decide_eq_true_eq]
  split <;> omega

/-- A difference of bytes is the difference of their values modulo 256. -/
theorem toNat_sub_byte (a b : Byte) : ((a - b).toNat : Int) = (a.toNat - b.toNat : Int) % 256 := by
  have := b.isLt
  rw [BitVec.toNat_sub]
  omega

/-! ### Arithmetic with a flag, and shifts -/

/-- What the five flag-setting instructions share: the frame, the result, and the flag when VF is not the
destination (42_alu.md R161). -/
theorem writeFlagThenV_spec (s : State) (x : RegIx) (flag result : Byte) :
    RegFrame (fun j => j = x ∨ j = 0xF) s (s.advance.writeFlagThenV x flag result) ∧
      (s.advance.writeFlagThenV x flag result).readV x = result ∧
      (x ≠ 0xF → (s.advance.writeFlagThenV x flag result).readV 0xF = flag) :=
  ⟨regFrame_writeFlagThenV s x flag result, State.readV_writeFlagThenV_self _ x flag result,
    State.readVF_writeFlagThenV _ flag result⟩

/-- Settles O20: the results are exact modulo 256, and the flags are the carry and no-borrow of the operands. -/
theorem addAndSubtractWithFlag : Obligations.AddAndSubtractWithFlag := by
  intro s x y
  refine ⟨⟨_, exec_addReg s x y, ?add⟩, ⟨_, exec_sub s x y, ?sub⟩, ⟨_, exec_subn s x y, ?subn⟩⟩
  case add =>
    obtain ⟨hframe, hresult, hflag⟩ := writeFlagThenV_spec s x
      (carryFlag (s.readV x) (s.readV y)) (s.readV x + s.readV y)
    refine ⟨hframe, ?_, fun hx => ?_⟩
    · rw [hresult]; exact BitVec.toNat_add _ _
    · rw [hflag hx, toNat_carryFlag]
  case sub =>
    obtain ⟨hframe, hresult, hflag⟩ := writeFlagThenV_spec s x
      (noBorrowFlag (s.readV x) (s.readV y)) (s.readV x - s.readV y)
    refine ⟨hframe, ?_, fun hx => ?_⟩
    · rw [hresult, toNat_sub_byte]
    · rw [hflag hx, toNat_noBorrowFlag]
  case subn =>
    obtain ⟨hframe, hresult, hflag⟩ := writeFlagThenV_spec s x
      (noBorrowFlag (s.readV y) (s.readV x)) (s.readV y - s.readV x)
    refine ⟨hframe, ?_, fun hx => ?_⟩
    · rw [hresult, toNat_sub_byte]
    · rw [hflag hx, toNat_noBorrowFlag]

/-- Settles O21: the shifts halve and double the value, and the flag is the bit that leaves the byte. -/
theorem shiftsInPlaceWithFlag : Obligations.ShiftsInPlaceWithFlag := by
  intro s x y
  refine ⟨⟨_, exec_shr s x y, ?shr⟩, ⟨_, exec_shl s x y, ?shl⟩⟩
  case shr =>
    obtain ⟨hframe, hresult, hflag⟩ := writeFlagThenV_spec s x (shiftRightFlag (s.readV x)) (s.readV x >>> 1)
    refine ⟨hframe, ?_, fun hx => ?_⟩
    · rw [hresult, BitVec.toNat_ushiftRight, Nat.shiftRight_one]
    · rw [hflag hx, toNat_shiftRightFlag]
  case shl =>
    obtain ⟨hframe, hresult, hflag⟩ := writeFlagThenV_spec s x (shiftLeftFlag (s.readV x)) (s.readV x <<< 1)
    refine ⟨hframe, ?_, fun hx => ?_⟩
    · rw [hresult, BitVec.toNat_shiftLeft, Nat.shiftLeft_eq]
    · rw [hflag hx, toNat_shiftLeftFlag]

/-! ### The random byte -/

/-- Settles O22: one draw and one register write of the masked byte. -/
theorem randomByteIsMasked : Obligations.RandomByteIsMasked := by
  intro s x kk
  refine ⟨_, exec_rnd s x kk, State.readV_writeV_self _ x _, fun b _ hb => ?_,
    fun j hj => State.readV_writeV_of_ne _ _ hj, fun _ => rfl, rfl, rfl, rfl⟩
  rw [State.readV_writeV_self, BitVec.getLsbD_and, hb, Bool.and_false]

end Sys2Proof.Machine
end

section
/-! Index register and memory, 43_index_memory.md R171 to R176. -/

namespace Sys2Proof.Machine

theorem exec_addI (s : State) (x : RegIx) :
    exec (.addI x) s = .next (s.advance.setI (s.i + byteWord (s.readV x))) := rfl

/-- Settles O24: a sum of 16-bit words. -/
theorem indexRegisterAdd : Obligations.IndexRegisterAdd := by
  intro s x
  refine ⟨_, exec_addI s x, ?_, rfl, fun _ => rfl, fun _ => rfl, rfl⟩
  rw [State.setI_i, BitVec.toNat_add, toNat_byteWord]

/-! ### Stores -/

/-- Inside the bytes stored, memory reads as stored. -/
theorem State.readByte_writeBytes_inside {s : State} {a k : Nat} {bs : List Byte} (hm : Memory.wf s.mem = true)
    (h : a + bs.length ≤ 4096) (hk : k < bs.length) : (s.advance.writeBytes a bs).readByte (a + k) = bs[k] :=
  Memory.read_writeBytes_inside hm h hk

/-- Outside the bytes stored, memory reads as before. -/
theorem readsAsBeforeOutside_writeBytes {s : State} {a : Nat} {bs : List Byte} (hm : Memory.wf s.mem = true)
    (h : a + bs.length ≤ 4096) : ReadsAsBeforeOutside a bs.length s (s.advance.writeBytes a bs) :=
  fun _ hc => Memory.read_writeBytes_outside hm h hc

/-- The three bytes LD B stores. -/
theorem bcdDigits_toNat (b : Byte) (k : Nat) (hk : k < 3) :
    ((bcdDigits b)[k]'hk).toNat = b.toNat / 10 ^ (2 - k) % 10 := by
  have := b.isLt
  match k, hk with
  | 0, _ => show (b / 100).toNat = _; rw [BitVec.toNat_udiv]; simp; omega
  | 1, _ => show ((b / 10) % 10).toNat = _; rw [BitVec.toNat_umod, BitVec.toNat_udiv]; rfl
  | 2, _ => show (b % 10).toNat = _; rw [BitVec.toNat_umod]; simp

/-- Settles O25: the three stored bytes are the digits. -/
theorem decimalDigitsStored : Obligations.DecimalDigitsStored := by
  intro s x hm hi
  have hlen : s.i.toNat + (bcdDigits (s.readV x)).length ≤ 4096 := by rw [length_bcdDigits]; omega
  have hdigit : ∀ k (hk : k < 3), ((s.advance.writeBytes s.i.toNat (bcdDigits (s.readV x))).readByte
      (s.i.toNat + k)).toNat = (s.readV x).toNat / 10 ^ (2 - k) % 10 := fun k hk => by
    rw [State.readByte_writeBytes_inside hm hlen hk, bcdDigits_toNat]
  refine ⟨_, exec_ldB_of_fits s x hi, ?_, hdigit 1 (by decide), ?_, readsAsBeforeOutside_writeBytes hm hlen,
    rfl, rfl⟩
  · have := (s.readV x).isLt
    exact (hdigit 0 (by decide)).trans (by omega)
  · exact (hdigit 2 (by decide)).trans (by omega)

/-- The bytes a block store leaves: `V[k]` at `I + k`. -/
theorem readByte_blockStore {s : State} {x k : RegIx} (hm : Memory.wf s.mem = true)
    (hi : s.i.toNat + x.val ≤ 4095) (hk : k.val ≤ x.val) :
    (s.advance.writeBytes s.i.toNat (s.firstRegs (x.val + 1))).readByte (s.i.toNat + k.val) = s.readV k := by
  have hlen : (s.firstRegs (x.val + 1)).length = x.val + 1 := s.length_firstRegs _ (by omega)
  rw [State.readByte_writeBytes_inside hm (by omega) (by omega), State.getElem_firstRegs s (by omega) k.isLt]

/-- Settles O26: the store writes the registers' bytes and no others. -/
theorem blockStore : Obligations.BlockStore := by
  intro s x hm hi
  have hlen : (s.firstRegs (x.val + 1)).length = x.val + 1 := s.length_firstRegs _ (by omega)
  have hout := readsAsBeforeOutside_writeBytes (bs := s.firstRegs (x.val + 1)) hm (by omega : s.i.toNat + _ ≤ 4096)
  rw [hlen] at hout
  exact ⟨_, exec_ldMemVx_of_fits s x hi, fun _ => readByte_blockStore hm hi, hout, rfl, rfl⟩

/-! ### Loads -/

/-- A register a block load loads holds the byte read for it. -/
theorem readV_loadRegs_loaded (s t : State) (x : RegIx) (a : Nat) {k : RegIx} (h : k.val ≤ x.val) :
    (s.loadRegs (t.readBytes a (x.val + 1))).readV k = t.readByte (a + k.val) := by
  rw [State.readV_loadRegs, State.readBytes, Memory.getElem?_readBytes, if_pos (by omega)]
  rfl

/-- Settles O27: the load writes the registers up to x and no others. -/
theorem blockLoad : Obligations.BlockLoad := fun s x hi =>
  ⟨_, exec_ldVxMem_of_fits s x hi, fun _ => readV_loadRegs_loaded _ s x _,
    fun _ => readV_loadRegs_above _ s x _, fun _ => rfl, rfl, rfl⟩

/-- Settles O28: a loaded register gets back the byte stored from it, and the others are not loaded. -/
theorem blockStoreThenLoad : Obligations.BlockStoreThenLoad := by
  intro s x hm hi
  refine ⟨_, _, exec_ldMemVx_of_fits s x hi, exec_ldVxMem_of_fits _ x hi, fun k => ?_, fun _ => rfl⟩
  by_cases hk : k.val ≤ x.val
  · rw [readV_loadRegs_loaded _ _ x _ hk]
    exact readByte_blockStore hm hi hk
  · rw [readV_loadRegs_above _ _ x _ hk]
    rfl

/-- Settles O29: each of the four checks its whole range first. -/
theorem rangeFaultsLatch : Obligations.RangeFaultsLatch := fun s x y n =>
  ⟨exec_ldB_of_out s x, exec_ldMemVx_of_out s x, exec_ldVxMem_of_out s x, exec_drw_of_out s x y n⟩

/-- Settles O30: the two bytes the fetch reads are the two the store wrote from V0 and V1. -/
theorem storeIsSeenByTheNextFetch : Obligations.StoreIsSeenByTheNextFetch := by
  intro s x hm hx hpc hi
  refine ⟨_, exec_ldMemVx_of_fits s x hi, ?_⟩
  have hat : (s.advance.writeBytes s.i.toNat (s.firstRegs (x.val + 1))).pc = s.i := hpc.symm
  rw [State.fetch?_of_le _ (by rw [hat]; omega), hat]
  have hbyte0 := readByte_blockStore (k := 0) hm hi (Nat.zero_le _)
  have hbyte1 := readByte_blockStore (k := 1) hm hi hx
  exact congrArg some (congrArg₂ joinBytes hbyte0 hbyte1)

end Sys2Proof.Machine
end

section
/-! The sprite, 44_display.md R187, R188 and R190. -/

namespace Sys2Proof.Machine

/-- The collision flag as the condition it stands for. -/
theorem collisionFlag_eq_one_iff (b : Bool) : collisionFlag b = 1 ↔ b = true := by
  cases b <;> decide

/-- Settles O32: the loops toggle each covered pixel once, and the rows DRW reads are the bytes at `I`. -/
theorem drawXorsTheSprite : Obligations.DrawXorsTheSprite := by
  intro s x y n hn
  have hlen : (s.readBytes s.i.toNat n.val).length ≤ 32 := by
    rw [State.readBytes, Memory.length_readBytes]; omega
  refine ⟨_, exec_drw_of_fits s x y n hn, fun px py => ?pixels, ?flag, ?collision,
    fun j hj => State.readV_writeV_of_ne _ _ hj, fun _ => rfl, rfl, rfl⟩
  case pixels =>
    refine (pixel_draw hlen (s.readV x) (s.readV y) s.fb px py).trans ?_
    rw [rowsCover_readBytes, State.pixel]
    cases s.fb.pixel px py <;> simp
  case flag =>
    rw [State.readV_writeV_self]
    exact (flagByte_zero_or_one _).symm
  case collision =>
    rw [State.readV_writeV_self, collisionFlag_eq_one_iff, erased_draw hlen]
    simp only [rowsCover_readBytes, State.pixel]

/-- Settles O33: two toggles of the same pixels cancel, and the second meets a set pixel where the first met
an unset one. -/
theorem drawTwiceRestoresTheGrid : Obligations.DrawTwiceRestoresTheGrid := by
  intro rows xs ys fb hrows
  have hlen : rows.length ≤ 32 := by omega
  refine ⟨Grid.ext_pixel fun px py => ?grid, ?erased⟩
  case grid =>
    rw [Bool.eq_iff_iff, pixel_draw hlen, ← Bool.not_eq_true, pixel_draw hlen]
    cases fb.pixel px py <;> by_cases hc : RowsCover rows xs ys px py <;> simp [hc]
  case erased =>
    rw [erased_draw hlen]
    refine exists_congr fun px => exists_congr fun py => and_congr_right fun hc => ?_
    rw [pixel_draw hlen]
    simp [hc]

end Sys2Proof.Machine
end

section
/-! Keys and timers, 45_keys_timers.md. -/

namespace Sys2Proof.Machine

theorem exec_ldVxDt (s : State) (x : RegIx) : exec (.ldVxDt x) s = .next (s.advance.writeV x s.dt) := rfl

theorem exec_ldDtVx (s : State) (x : RegIx) : exec (.ldDtVx x) s = .next (s.advance.setDt (s.readV x)) := rfl

theorem exec_ldStVx (s : State) (x : RegIx) : exec (.ldStVx x) s = .next (s.advance.setSt (s.readV x)) := rfl

theorem exec_ldVxK (s : State) (x : RegIx) :
    exec (.ldVxK x) s = .next (s.advance.setWait (.awaitingKey x)) := rfl

/-- Settles O34: both are the conditional skip, on the recorded status and on its negation. -/
theorem keySkips : Obligations.KeySkips := by
  intro s x k hk
  refine ⟨⟨_, exec_skp_of_key s x k hk, s.pc_advance_skipIf _, pcFrame_skipIf s _⟩,
    ⟨_, exec_sknp_of_key s x k hk, ?_, pcFrame_skipIf s _⟩⟩
  rw [State.pc_advance_skipIf]
  cases s.readKey k <;> rfl

/-- Settles O35: an index above 15 names no key. -/
theorem keyIndexFaultsLatch : Obligations.KeyIndexFaultsLatch := by
  intro s x h
  rw [exec_skp_of_out s x h, exec_sknp_of_out s x h, State.latchFault, State.latchFault, BitVec.ofNat_toNat]
  exact ⟨rfl, rfl⟩

/-- Settles O36: each of the three is the advance and one write. -/
theorem timerAccess : Obligations.TimerAccess := fun s x =>
  ⟨⟨_, exec_ldVxDt s x, State.readV_writeV_self _ x _, regFrame_writeV s x _⟩,
    ⟨_, exec_ldDtVx s x, rfl, rfl, fun _ => rfl, fun _ => rfl, rfl⟩,
    ⟨_, exec_ldStVx s x, rfl, rfl, fun _ => rfl, fun _ => rfl, rfl⟩⟩

/-- Settles O37: the advance and one write of the gate. -/
theorem keyWaitIsEntered : Obligations.KeyWaitIsEntered := fun s x =>
  ⟨_, exec_ldVxK s x, rfl, rfl, fun _ => rfl, fun _ => rfl, rfl⟩

end Sys2Proof.Machine
end

section
/-! What one step of the machine can do, event by event, said once (46_frame_driver_input_gate.md R215). -/

namespace Sys2Proof.Machine

/-! ### Events -/

/-- All that a step of the machine can do: the next event of the schedule, with what handling it answers. -/
inductive StepCase (s t : State) : Prop
  | instr (rest : List Event) (hev : s.events = [] ∧ rest = [] ∨ s.events = .step :: rest)
      (ht : { s with events := rest }.instrStep = .next t)
  | tick (speed : Nat) (rest : List Event) (hev : s.events = .tick speed :: rest) (hspeed : speed ≠ 0)
      (ht : { s with events := rest }.tick speed = .next t)
  | key (code : KeyCode) (pressed : Bool) (rest : List Event) (hev : s.events = .key code pressed :: rest)
      (ht : t = { s with events := rest }.keyEvent code pressed)
  | reset (rest : List Event) (hev : s.events = .reset :: rest) (ht : t = { s with events := rest }.resetEvent)
  | load (bytes : List Byte) (rest : List Event) (hev : s.events = .load bytes :: rest)
      (ht : t = { s with events := rest }.load bytes)

/-- A tick of speed 0 has no next state (46_frame_driver_input_gate.md R217). -/
theorem State.tick_zero (s : State) : s.tick 0 = .fault .zeroSpeedTick := if_pos rfl

theorem stepCase {s t : State} (h : step s = .next t) : StepCase s t := by
  cases hev : s.events with
  | nil =>
    have hs : { s with events := [] } = s := by rw [← hev]
    rw [step_unscheduled s hev, ← hs] at h
    exact .instr [] (.inl ⟨hev, rfl⟩) h
  | cons e rest =>
    rw [step_scheduled s hev] at h
    cases e with
    | tick speed =>
      rw [State.handle_tick] at h
      refine .tick speed rest hev (fun h0 => ?_) h
      rw [h0, State.tick_zero] at h
      cases h
    | key code pressed => exact .key code pressed rest hev (Outcome.next_inj.1 h).symm
    | reset => exact .reset rest hev (Outcome.next_inj.1 h).symm
    | load bytes => exact .load bytes rest hev (Outcome.next_inj.1 h).symm
    | step => exact .instr rest (.inr hev) h

/-- All that a tick within the interface can do. -/
theorem State.tick_cases {s t : State} {speed : Nat} (hspeed : speed ≠ 0) (h : s.tick speed = .next t) :
    (s.fault ≠ none ∧ t = s) ∨
    (s.fault = none ∧ s.wait ≠ .running ∧ t = s.setTone false) ∨
    (s.canExecute = true ∧ runSteps speed s.tickDelay.tickSound = .next t) := by
  by_cases hfault : s.fault = none
  · by_cases hwait : s.wait = .running
    · rw [s.tick_running hspeed hfault hwait] at h
      exact .inr (.inr ⟨s.canExecute_iff.2 ⟨hfault, hwait⟩, h⟩)
    · rw [s.tick_paused hspeed hfault hwait, Outcome.next_inj] at h
      exact .inr (.inl ⟨hfault, hwait, h.symm⟩)
  · rw [s.tick_faulted hspeed hfault, Outcome.next_inj] at h
    exact .inl ⟨hfault, h.symm⟩

/-- A press that is waited for records the status, writes the code and ends the wait. -/
theorem State.keyEvent_press {s : State} {code : KeyCode} {x : RegIx} (hfault : s.fault = none)
    (hkey : s.readKey code ≠ true) (hwait : s.wait = .awaitingKey x) :
    s.keyEvent code true = ((s.setKey code true).writeV x (BitVec.ofNat 8 code.val)).setWait .running := by
  rw [s.keyEvent_transition code true hfault hkey]
  exact State.endWait_press _ code hwait

/-- Every other transition records the status and does nothing else. -/
theorem State.keyEvent_record {s : State} {code : KeyCode} {pressed : Bool} (hfault : s.fault = none)
    (hkey : s.readKey code ≠ pressed) (h : pressed = false ∨ s.wait = .running) :
    s.keyEvent code pressed = s.setKey code pressed := by
  rw [s.keyEvent_transition code pressed hfault hkey]
  exact State.endWait_other _ code pressed h

/-- The recorded statuses after a transition. -/
theorem State.readKey_keyEvent {s : State} {code : KeyCode} {pressed : Bool} (hfault : s.fault = none)
    (hkey : s.readKey code ≠ pressed) (k : KeyCode) :
    (s.keyEvent code pressed).readKey k = if k = code then pressed else s.readKey k := by
  rw [s.keyEvent_transition code pressed hfault hkey, State.readKey, State.endWait_key]
  exact s.readKey_setKey code k pressed

/-- All that a key event can do. -/
theorem State.keyEvent_cases (s : State) (code : KeyCode) (pressed : Bool) :
    s.keyEvent code pressed = s ∨
    (s.fault = none ∧ s.readKey code ≠ pressed ∧
      ((∃ x, pressed = true ∧ s.wait = .awaitingKey x ∧ s.keyEvent code pressed =
          ((s.setKey code true).writeV x (BitVec.ofNat 8 code.val)).setWait .running) ∨
        s.keyEvent code pressed = s.setKey code pressed)) := by
  by_cases hfault : s.fault = none
  · by_cases hkey : s.readKey code = pressed
    · exact .inl (s.keyEvent_repeat code pressed hkey)
    · refine .inr ⟨hfault, hkey, ?_⟩
      cases pressed with
      | false => exact .inr (State.keyEvent_record hfault hkey (.inl rfl))
      | true =>
        cases hwait : s.wait with
        | running => exact .inr (State.keyEvent_record hfault hkey (.inr hwait))
        | awaitingKey x => exact .inl ⟨x, rfl, rfl, State.keyEvent_press hfault hkey hwait⟩
  · exact .inl (s.keyEvent_faulted code pressed hfault)

/-! ### The step loop -/

theorem runSteps_succ {s u : State} (n : Nat) (h : s.instrStep = .next u) :
    runSteps (n + 1) s = if u.canExecute then runSteps n u else .next u := by
  rw [runSteps, h]

theorem stepsInARow_succ {s u : State} (n : Nat) (h : s.instrStep = .next u) :
    stepsInARow (n + 1) s = stepsInARow n u := by
  rw [stepsInARow, h]

/-- What every instruction step keeps, the loop of a tick keeps. -/
theorem runSteps_keeps {P : State → Prop} (hstep : ∀ s t, P s → s.instrStep = .next t → P t) :
    ∀ (n : Nat) {s t : State}, P s → runSteps n s = .next t → P t
  | 0, s, t, hs, h => Outcome.next_inj.1 h ▸ hs
  | n + 1, s, t, hs, h => by
    obtain ⟨u, hu⟩ := s.instrStep_completes
    have hPu := hstep s u hs hu
    rw [runSteps_succ n hu] at h
    split at h
    · exact runSteps_keeps hstep n hPu h
    · exact Outcome.next_inj.1 h ▸ hPu

/-- The loop as a number of steps in a row, the shortest that reaches the end of the loop. -/
theorem runSteps_eq_stepsInARow : ∀ (n : Nat) {s t : State}, s.canExecute = true → runSteps (n + 1) s = .next t →
    ∃ k, 1 ≤ k ∧ k ≤ n + 1 ∧ stepsInARow k s = .next t ∧ (k < n + 1 → t.canExecute = false) ∧
      ∀ j < k, ∃ u, stepsInARow j s = .next u ∧ u.canExecute = true
  | n, s, t, hs, h => by
    obtain ⟨u, hu⟩ := s.instrStep_completes
    have hstart : ∀ j < 1, ∃ u, stepsInARow j s = .next u ∧ u.canExecute = true := fun j hj =>
      ⟨s, by rw [Nat.lt_one_iff.1 hj]; rfl, hs⟩
    rw [runSteps_succ n hu] at h
    cases hc : u.canExecute with
    | false =>
      rw [hc, if_neg Bool.false_ne_true, Outcome.next_inj] at h
      subst h
      exact ⟨1, le_rfl, by omega, stepsInARow_succ 0 hu, fun _ => hc, hstart⟩
    | true =>
      rw [hc, if_pos rfl] at h
      cases n with
      | zero =>
        rw [runSteps, Outcome.next_inj] at h
        subst h
        exact ⟨1, le_rfl, le_rfl, stepsInARow_succ 0 hu, fun h => absurd h (Nat.lt_irrefl 1), hstart⟩
      | succ n =>
        obtain ⟨k, hk1, hkn, hrow, hend, hbefore⟩ := runSteps_eq_stepsInARow n hc h
        refine ⟨k + 1, by omega, by omega, (stepsInARow_succ k hu).trans hrow, fun hlt => hend (by omega), ?_⟩
        intro j hj
        cases j with
        | zero => exact hstart 0 Nat.one_pos
        | succ j =>
          rw [stepsInARow_succ j hu]
          exact hbefore j (by omega)

/-- Settles O44: the loop ends before `speed` steps only in a state that cannot execute. -/
theorem tickRunsStepsUntilWaitOrFault : Obligations.TickRunsStepsUntilWaitOrFault := by
  intro speed s t hspeed hs h
  obtain ⟨n, rfl⟩ := Nat.exists_eq_add_of_le' hspeed
  obtain ⟨k, hk1, hkn, hrow, hend, hbefore⟩ := runSteps_eq_stepsInARow n hs h
  refine ⟨k, hk1, hkn, hrow, fun hlt => ?_, fun j hj => ?_⟩
  · have hstop := hend hlt
    rwa [← Bool.not_eq_true, State.canExecute_iff, not_and_or] at hstop
  · obtain ⟨u, hu, hc⟩ := hbefore j hj
    exact ⟨u, hu, u.canExecute_iff.1 hc⟩

/-- Settles O45, by induction on the steps: where the loop is left, the steps that follow are gated. -/
theorem leavingTheLoopEqualsContinuing : Obligations.LeavingTheLoopEqualsContinuing := by
  intro speed
  induction speed with
  | zero => exact fun _ => rfl
  | succ n ih =>
    intro s
    obtain ⟨u, hu⟩ := s.instrStep_completes
    rw [runSteps_succ n hu, stepsInARow_succ n hu]
    cases hc : u.canExecute with
    | true => exact ih u
    | false => exact (stepsInARow_gated u hc n).symm

/-- A tick within the interface answers a next state. -/
theorem State.tick_completes (s : State) {speed : Nat} (hspeed : speed ≠ 0) : ∃ t, s.tick speed = .next t := by
  by_cases hfault : s.fault = none
  · by_cases hwait : s.wait = .running
    · exact s.tick_running hspeed hfault hwait ▸ runSteps_completes speed _
    · exact ⟨_, s.tick_paused hspeed hfault hwait⟩
  · exact ⟨_, s.tick_faulted hspeed hfault⟩

/-- Settles O59: every event but a tick of speed 0 is handled with a next state. -/
theorem everyStepCompletes : Obligations.EveryStepCompletes := by
  intro s hno
  cases hev : s.events with
  | nil => exact step_unscheduled s hev ▸ s.instrStep_completes
  | cons e rest =>
    rw [step_scheduled s hev]
    cases e with
    | tick speed => exact State.tick_completes _ fun h0 => hno rest (h0 ▸ hev)
    | step => exact State.instrStep_completes _
    | key | reset | load => exact ⟨_, rfl⟩

/-! ### The end of a run -/

/-- The end of a run does not rest on the timers, the tone gate, the key record or the schedule. -/
theorem State.ended_congr {s t : State} (h : s.ended = true)
    (ht : t = { s with events := t.events, dt := t.dt, st := t.st, tone := t.tone, key := t.key }) :
    t.ended = true := by
  rw [ht]; exact h

/-- A tick in an ended run moves the timers and leaves the run where it is. -/
theorem State.tick_ended {s : State} {speed : Nat} (hspeed : speed ≠ 0) (h : s.ended = true) :
    s.tick speed = .next s.tickDelay.tickSound := by
  obtain ⟨hfault, hwait⟩ := s.canExecute_iff.1 (s.ended_iff.1 h).1
  obtain ⟨-, -, -, htimers⟩ := s.tickTimers_spec
  have hend : s.tickDelay.tickSound.ended = true := by rw [htimers]; exact h
  rw [s.tick_running hspeed hfault hwait, runSteps_ended _ hend]

/-- Settles O60: at a jump to itself the instruction step is the identity, so the loop of a tick is too. -/
theorem endedRunStaysEnded : Obligations.EndedRunStaysEnded := by
  intro s hend
  refine ⟨s.instrStep_ended hend, fun t h => ?_⟩
  have hwait := (s.canExecute_iff.1 (s.ended_iff.1 hend).1).2
  have hstays (ht : t = { s with events := t.events, dt := t.dt, st := t.st, tone := t.tone, key := t.key }) :=
    And.intro (State.ended_congr hend ht) ht
  cases stepCase h with
  | reset rest hev => exact .inl ⟨rest, hev⟩
  | load bytes rest hev => exact .inr (.inl ⟨bytes, rest, hev⟩)
  | instr rest hev ht =>
    rw [State.instrStep_ended { s with events := rest } hend, Outcome.next_inj] at ht
    exact .inr (.inr (hstays (ht ▸ rfl)))
  | key code pressed rest hev ht =>
    refine .inr (.inr (hstays ?_))
    obtain hsame | ⟨-, -, ⟨x, -, hx, -⟩ | hrecord⟩ := State.keyEvent_cases { s with events := rest } code pressed
    · rw [ht, hsame]
    · rw [hwait] at hx; cases hx
    · rw [ht, hrecord]; rfl
  | tick speed rest hev hspeed ht =>
    refine .inr (.inr (hstays ?_))
    obtain ⟨-, -, -, htimers⟩ := State.tickTimers_spec { s with events := rest }
    rw [State.tick_ended (s := { s with events := rest }) hspeed hend, Outcome.next_inj] at ht
    rw [← ht, htimers]

end Sys2Proof.Machine
end

section
/-! The input gate, 46_frame_driver_input_gate.md R223 to R228. -/

namespace Sys2Proof.Machine

theorem step_of_key_event {s : State} {code : KeyCode} {pressed : Bool} {rest : List Event}
    (h : s.events = .key code pressed :: rest) :
    step s = .next ({ s with events := rest }.keyEvent code pressed) :=
  step_scheduled s h

/-- A key code fits a register. -/
theorem toNat_keyByte (code : KeyCode) : (BitVec.ofNat 8 code.val).toNat = code.val :=
  Nat.mod_eq_of_lt (by omega)

/-- Settles O47: the transition records the status, and a press that is waited for is one more register write. -/
theorem keyEventsFollowTheGate : Obligations.KeyEventsFollowTheGate := by
  intro s code pressed rest hev hfault
  refine ⟨fun hrepeat => ?repeats, fun hkey => ⟨_, step_of_key_event hev, ?_, fun k hk => ?_, ?press, ?record⟩⟩
  case repeats => rw [step_of_key_event hev, State.keyEvent_repeat { s with events := rest } code pressed hrepeat]
  · rw [State.readKey_keyEvent (s := { s with events := rest }) hfault hkey, if_pos rfl]
  · rw [State.readKey_keyEvent (s := { s with events := rest }) hfault hkey, if_neg hk]
    rfl
  case press =>
    rintro x rfl hwait
    rw [State.keyEvent_press (s := { s with events := rest }) hfault hkey hwait]
    refine ⟨?_, fun j hj => State.readV_writeV_of_ne _ _ hj, rfl⟩
    exact (congrArg BitVec.toNat (State.readV_writeV_self _ x _)).trans (toNat_keyByte code)
  case record =>
    intro hother
    rw [State.keyEvent_record (s := { s with events := rest }) hfault hkey hother]
    rfl

/-- Settles O48, event by event: a paused machine executes nothing, and a load writes memory only. -/
theorem keyWaitIsLeftOnlyByPressOrReset : Obligations.KeyWaitIsLeftOnlyByPressOrReset := by
  intro s t x hwait h
  have hne : s.wait ≠ .running := by rw [hwait]; simp
  have hgated : s.canExecute = false := State.canExecute_eq_false (.inr hne)
  cases stepCase h with
  | instr rest hev ht =>
    rw [State.instrStep_gated { s with events := rest } hgated, Outcome.next_inj] at ht
    subst ht
    exact .inl ⟨hwait, rfl, rfl, rfl, rfl, rfl, rfl, rfl, rfl⟩
  | tick speed rest hev hspeed ht =>
    obtain ⟨-, rfl⟩ | ⟨-, -, rfl⟩ | ⟨hc, -⟩ := State.tick_cases hspeed ht
    · exact .inl ⟨hwait, rfl, rfl, rfl, rfl, rfl, rfl, rfl, rfl⟩
    · exact .inl ⟨hwait, rfl, rfl, rfl, rfl, rfl, rfl, rfl, rfl⟩
    · exact absurd hc (Bool.eq_false_iff.1 hgated)
  | key code pressed rest hev ht =>
    obtain hsame | ⟨hfault, hkey, ⟨y, rfl, hy, hpress⟩ | hrecord⟩ :=
      State.keyEvent_cases { s with events := rest } code pressed
    · rw [ht, hsame]
      exact .inl ⟨hwait, rfl, rfl, rfl, rfl, rfl, rfl, rfl, rfl⟩
    · obtain rfl : x = y := by simpa [hwait] using hy
      rw [ht, hpress]
      refine .inr (.inl ⟨code, rest, hev, Bool.eq_false_iff.2 hkey, hfault, rfl, ?_, rfl⟩)
      exact (congrArg BitVec.toNat (State.readV_writeV_self _ x _)).trans (toNat_keyByte code)
    · rw [ht, hrecord]
      exact .inl ⟨hwait, rfl, rfl, rfl, rfl, rfl, rfl, rfl, rfl⟩
  | reset rest hev ht =>
    subst ht
    exact .inr (.inr ⟨rest, hev, rfl, rfl⟩)
  | load bytes rest hev ht =>
    rw [ht, State.load]
    split <;> exact .inl ⟨hwait, rfl, rfl, rfl, rfl, rfl, rfl, rfl, rfl⟩

/-- Settles O49: of the instructions only LD Vx,K writes the gate, and its word is read back from it. -/
theorem onlyKeyWaitInstructionEntersTheWait : Obligations.OnlyKeyWaitInstructionEntersTheWait := by
  intro s t x hrun h hwait
  have hne : t.wait ≠ s.wait := by rw [hwait, hrun]; simp
  obtain ⟨-, rfl⟩ | ⟨-, -, rfl⟩ | ⟨-, -, w, hw, hexec⟩ := s.instrStep_cases h
  · exact absurd rfl hne
  · exact absurd rfl hne
  · obtain ⟨-, -, -, -, -, -, -, hgate, -⟩ := onlyNamedInstructionsWrite _ s t hexec
    obtain ⟨y, hy, hty⟩ := hgate hne
    obtain rfl : x = y := by simpa [hwait] using hty
    rw [hw, ← hy, encode_decodeWord]

end Sys2Proof.Machine
end

section
/-! Reset, load and power-on, 10_state.md R38 and R40, 46_frame_driver_input_gate.md R227 to R230. -/

namespace Sys2Proof.Machine

theorem step_of_load_event {s : State} {bytes : List Byte} {rest : List Event}
    (h : s.events = .load bytes :: rest) : step s = .next ({ s with events := rest }.load bytes) :=
  step_scheduled s h

theorem step_of_reset_event {s : State} {rest : List Event} (h : s.events = .reset :: rest) :
    step s = .next { s with events := rest }.resetEvent :=
  step_scheduled s h

/-- Settles O50: the event is the named reset, whose registers and keys are constant vectors. -/
theorem resetEventValues : Obligations.ResetEventValues := by
  intro s rest hev
  refine ⟨_, step_of_reset_event hev, fun j => Vector.getElem_replicate j.isLt, rfl, rfl, rfl, rfl, rfl, rfl,
    fun k => Vector.getElem_replicate k.isLt, Grid.pixel_blank, rfl, rfl, fun _ => rfl, rfl, rfl, rfl, rfl, rfl⟩

/-- Settles O51: the fields of the reset state are written out. -/
theorem resetStateValues : Obligations.ResetStateValues :=
  ⟨fun j => Vector.getElem_replicate j.isLt, rfl, rfl, rfl, rfl, rfl, rfl,
    fun k => Vector.getElem_replicate k.isLt, Grid.pixel_blank, rfl, rfl, rfl, rfl⟩

/-- Settles O52: 512 and 3584 bytes make 4096, so the bytes stored are inside memory. -/
theorem loadCopiesTheBytes : Obligations.LoadCopiesTheBytes := by
  intro s bytes rest hev hm hlen
  have hfits : 0x200 + bytes.length ≤ 4096 := by omega
  rw [step_of_load_event hev, State.load_of_fits _ hlen]
  exact ⟨_, rfl, fun k hk => Memory.read_writeBytes_inside hm hfits hk,
    fun a ha => Memory.read_writeBytes_outside hm hfits ha, rfl, rfl⟩

/-- Settles O53: the length is checked first. -/
theorem longLoadIsRejected : Obligations.LongLoadIsRejected := by
  intro s bytes rest hev hlen
  rw [step_of_load_event hev, State.load_of_long _ hlen]

/-- Settles O54: the length decides what a load does, and reset keeps memory and the reply. -/
theorem loadAndResetCommute : Obligations.LoadAndResetCommute := by
  intro s bytes
  by_cases hlen : bytes.length ≤ 3584
  · rw [s.load_of_fits hlen, s.resetEvent.load_of_fits hlen]
    rfl
  · rw [s.load_of_long (Nat.lt_of_not_le hlen), s.resetEvent.load_of_long (Nat.lt_of_not_le hlen)]
    rfl

/-! ### Power-on -/

/-- The font in an empty memory is in canonical form. -/
theorem wf_fontImage (font : Vector Byte 80) : Memory.wf (Memory.writeBytes [] 0 font.toList) = true :=
  Memory.wf_writeBytes rfl (by simp)

/-- Settles O55: the font is written at 0 and `MEM_INIT` at 80, and neither reaches the other. -/
theorem powerOnHoldsTheParameters : Obligations.PowerOnHoldsTheParameters := by
  intro font memInit stack
  have hfont : 0 + font.toList.length ≤ 4096 := by simp
  have hinit : 80 + memInit.toList.length ≤ 4096 := by simp
  refine ⟨fun a => ?font, fun a => ?init, Memory.wf_writeBytes (wf_fontImage font) hinit, rfl⟩
  case font =>
    have houtside := Memory.read_writeBytes_outside (wf_fontImage font) hinit (.inl a.isLt)
    have hinside := Memory.read_writeBytes_inside (m := []) (k := a.val) rfl hfont (by simp)
    rw [Nat.zero_add, Vector.getElem_toList] at hinside
    exact houtside.trans hinside
  case init =>
    have hinside := Memory.read_writeBytes_inside (k := a.val) (wf_fontImage font) hinit (by simp)
    rw [Vector.getElem_toList] at hinside
    exact hinside

end Sys2Proof.Machine
end

section
/-! Faults over whole runs, and the invariant of the machine (60_exceptions.md R252, R253, 10_state.md R26, R29). -/

namespace Sys2Proof.Machine

/-! ### A faulted machine -/

/-- Settles O56, event by event: every event but a load and a reset is a no-op in a faulted machine. -/
theorem faultedMachineIsHalted : Obligations.FaultedMachineIsHalted := by
  intro s t r hfault h
  have hne : s.fault ≠ none := by rw [hfault]; simp
  cases stepCase h with
  | reset rest hev ht => exact .inl ⟨rest, hev, ht ▸ rfl⟩
  | instr rest hev ht =>
    rw [State.instrStep_gated { s with events := rest } (State.canExecute_eq_false (.inl hne)),
      Outcome.next_inj] at ht
    subst ht
    exact .inr ⟨hfault, rest, hev.imp_right fun he => ⟨_, he⟩, .inl rfl⟩
  | tick speed rest hev hspeed ht =>
    rw [State.tick_faulted { s with events := rest } hspeed hne, Outcome.next_inj] at ht
    subst ht
    exact .inr ⟨hfault, rest, .inr ⟨_, hev⟩, .inl rfl⟩
  | key code pressed rest hev ht =>
    rw [State.keyEvent_faulted { s with events := rest } code pressed hne] at ht
    subst ht
    exact .inr ⟨hfault, rest, .inr ⟨_, hev⟩, .inl rfl⟩
  | load bytes rest hev ht =>
    rw [ht, State.load]
    split <;> exact .inr ⟨hfault, rest, .inr ⟨_, hev⟩, .inr ⟨bytes, hev, rfl⟩⟩

/-! ### The parts of the invariant -/

theorem State.latchOk_of_no_fault {s : State} (h : s.fault = none) : s.latchOk = true := by
  rw [State.latchOk, h]

theorem State.stackOk_iff (s : State) :
    s.stackOk = true ↔ ∀ j : Fin 16, j.val < s.sp.val → (s.stack[j]).toNat ≤ 4096 := decide_eq_true_iff

theorem State.pcOk_iff (s : State) : s.pcOk = true ↔ s.pc.toNat ≤ 0x10FE := decide_eq_true_iff

/-- A latch written by a running machine is truthful when the record explains itself. -/
theorem State.latchOk_of_latched {s : State} {r : FaultRecord} (hwait : s.wait = .running) (hpc : r.pc = s.pc)
    (hr : r.explains s = true) : { s with fault := some r }.latchOk = true := by
  show (s.wait == .running && r.pc == s.pc && r.explains { s with fault := some r }) = true
  have hr' : r.explains { s with fault := some r } = true := hr
  rw [hr', hwait, hpc, beq_self_eq_true, beq_self_eq_true, Bool.and_self, Bool.and_self]

/-- The invariant does not rest on the display, the timers, the tone gate, the keys or the model's own fields. -/
theorem State.Inv.congr {s t : State} (h : s.Inv)
    (ht : t = { s with
      dt := t.dt, st := t.st, key := t.key, fb := t.fb, tone := t.tone, draws := t.draws, events := t.events,
      loadReply := t.loadReply }) : t.Inv := by
  rw [ht]
  exact ⟨h.memory, h.latch, h.stack, h.pc⟩

/-! ### Instructions keep the invariant -/

/-- The two stores write inside memory, and nothing else writes memory. -/
theorem exec_keeps_memory {i : Instr} {s t : State} (hm : Memory.wf s.mem = true) (h : exec i s = .next t) :
    Memory.wf t.mem = true := by
  by_cases hmem : t.mem = s.mem
  · rw [hmem]; exact hm
  · obtain ⟨-, r, rfl, -⟩ | ⟨hc, -⟩ := exec_cases h
    · exact absurd rfl hmem
    · obtain ⟨x, rfl | rfl⟩ := (onlyNamedInstructionsWrite _ s t h).1 hmem
      · have hi : ¬ 4095 < s.i.toNat + 2 := hc
        rw [exec_ldB_of_fits s x (by omega), Outcome.next_inj] at h
        subst h
        exact Memory.wf_writeBytes hm (by rw [length_bcdDigits]; omega)
      · have hi : ¬ 4095 < s.i.toNat + x.val := hc
        rw [exec_ldMemVx_of_fits s x (by omega), Outcome.next_inj] at h
        subst h
        exact Memory.wf_writeBytes hm (by rw [s.length_firstRegs _ (by omega)]; omega)

/-- Of the instructions that complete, only CALL writes a stack entry, with the address after it. -/
theorem exec_keeps_stack {i : Instr} {s t : State} (hs : s.stackOk = true) (hpc : s.pc.toNat ≤ 4094)
    (h : exec i s = .next t) : t.stackOk = true := by
  obtain ⟨-, -, hstack, hsp, -⟩ := onlyNamedInstructionsWrite i s t h
  obtain ⟨-, r, rfl, -⟩ | ⟨hc, -⟩ := exec_cases h
  · exact hs
  · rw [State.stackOk_iff] at hs ⊢
    by_cases hcall : ∃ nnn, i = .call nnn
    · obtain ⟨nnn, rfl⟩ := hcall
      have hfull : ¬ s.sp.val = 16 := hc
      have hlt : s.sp.val < 16 := by omega
      rw [exec_call_of_lt s nnn hlt, Outcome.next_inj] at h
      subst h
      intro j hj
      simp only [Fin.getElem_fin, Vector.getElem_set]
      split
      · rw [BitVec.toNat_add]; simp; omega
      · next hne => exact hs j (by simp at hj; omega)
    · rw [not_imp_comm.1 hstack hcall]
      by_cases hret : i = .ret
      · subst hret
        have hempty : ¬ s.sp.val = 0 := hc
        rw [exec_ret_of_pos s (by omega), Outcome.next_inj] at h
        subst h
        intro j hj
        exact hs j (by simp at hj; omega)
      · rw [not_imp_comm.1 hsp (not_or.2 ⟨hret, hcall⟩)]
        exact hs

/-- From inside memory no instruction goes past 0x10FE, which JP V0 reaches. -/
theorem exec_keeps_pc {i : Instr} {s t : State} (hs : s.stackOk = true) (hpc : s.pc.toNat ≤ 4094)
    (h : exec i s = .next t) : t.pc.toNat ≤ 0x10FE := by
  have hnext : (s.pc + 2).toNat = s.pc.toNat + 2 := by rw [BitVec.toNat_add]; simp; omega
  have hskip : (s.pc + 4).toNat = s.pc.toNat + 4 := by rw [BitVec.toNat_add]; simp; omega
  obtain ⟨-, r, rfl, -⟩ | ⟨-, -, htarget, -⟩ := exec_cases h
  · exact hpc.trans (by decide)
  · cases i
    case jp nnn | call nnn =>
      have htarget : t.pc = addrWord nnn := htarget
      rw [htarget, toNat_addrWord]
      omega
    case jpV0 nnn =>
      have htarget : t.pc = addrWord nnn + byteWord (s.readV 0) := htarget
      rw [htarget, toNat_addrWord_add_byteWord]
      omega
    case ret =>
      obtain ⟨j, hj, htarget⟩ := htarget
      rw [htarget]
      exact (s.stackOk_iff.1 hs j (by omega)).trans (by decide)
    case seImm | sneImm | seReg | sneReg | skp | sknp =>
      obtain htarget | htarget := htarget <;> rw [htarget] <;> omega
    all_goals
      have htarget : t.pc = s.pc + 2 := htarget
      rw [htarget]
      omega

/-- An instruction run where it can be fetched keeps the invariant. -/
theorem exec_keeps_inv {i : Instr} {s t : State} (hs : s.Inv) (hc : s.canExecute = true)
    (hpc : s.pc.toNat ≤ 4094) (h : exec i s = .next t) : t.Inv := by
  obtain ⟨hfault, hwait⟩ := s.canExecute_iff.1 hc
  refine ⟨exec_keeps_memory hs.memory h, ?latch, exec_keeps_stack hs.stack hpc h,
    t.pcOk_iff.2 (exec_keeps_pc hs.stack hpc h)⟩
  case latch =>
    obtain ⟨-, r, rfl, hrpc, -, hr⟩ | ⟨-, hframe⟩ := exec_cases h
    · exact State.latchOk_of_latched hwait hrpc hr
    · exact State.latchOk_of_no_fault (hframe.unwritten.1.trans hfault)

/-- A fetch fault explains itself. -/
theorem explains_fetchFault {s : State} (hpc : 4094 < s.pc.toNat) :
    FaultRecord.explains ⟨.fetchOutOfBounds, s.pc, 0, BitVec.ofNat 17 s.pc.toNat⟩ s = true := by
  have hinfo : (BitVec.ofNat 17 s.pc.toNat).toNat = s.pc.toNat := Nat.mod_eq_of_lt (by omega)
  simp only [FaultRecord.explains, hinfo, hpc, decide_true, beq_self_eq_true, Bool.and_self]

theorem instrStep_keeps_inv (s t : State) (hs : s.Inv) (h : s.instrStep = .next t) : t.Inv := by
  obtain ⟨-, rfl⟩ | ⟨hc, hpc, rfl⟩ | ⟨hc, hpc, w, -, hexec⟩ := s.instrStep_cases h
  · exact hs
  · exact ⟨hs.memory, State.latchOk_of_latched (s.canExecute_iff.1 hc).2 rfl (explains_fetchFault hpc), hs.stack,
      hs.pc⟩
  · exact exec_keeps_inv hs hc hpc hexec

/-! ### Events keep the invariant -/

theorem tick_keeps_inv {s t : State} {speed : Nat} (hspeed : speed ≠ 0) (hs : s.Inv)
    (h : s.tick speed = .next t) : t.Inv := by
  obtain ⟨-, rfl⟩ | ⟨-, -, rfl⟩ | ⟨-, hrun⟩ := State.tick_cases hspeed h
  · exact hs
  · exact hs.congr rfl
  · obtain ⟨-, -, -, htimers⟩ := s.tickTimers_spec
    have hstart : s.tickDelay.tickSound.Inv := by rw [htimers]; exact ⟨hs.memory, hs.latch, hs.stack, hs.pc⟩
    exact runSteps_keeps instrStep_keeps_inv speed hstart hrun

/-- A key event that writes a register finds no fault latched, so the latch's record stays true. -/
theorem keyEvent_keeps_inv {s : State} (code : KeyCode) (pressed : Bool) (hs : s.Inv) :
    (s.keyEvent code pressed).Inv := by
  obtain hsame | ⟨hfault, -, ⟨x, -, -, hpress⟩ | hrecord⟩ := s.keyEvent_cases code pressed
  · rw [hsame]; exact hs
  · rw [hpress]; exact ⟨hs.memory, State.latchOk_of_no_fault hfault, hs.stack, hs.pc⟩
  · rw [hrecord]; exact hs.congr rfl

theorem resetEvent_keeps_inv {s : State} (hs : s.Inv) : s.resetEvent.Inv :=
  ⟨hs.memory, State.latchOk_of_no_fault rfl, (State.stackOk_iff _).2 fun _ hj => absurd hj (Nat.not_lt_zero _),
    by rfl⟩

theorem load_keeps_inv {s : State} (bytes : List Byte) (hs : s.Inv) : (s.load bytes).Inv := by
  by_cases hlen : bytes.length ≤ 3584
  · rw [s.load_of_fits hlen]
    exact ⟨Memory.wf_writeBytes hs.memory (by omega), hs.latch, hs.stack, hs.pc⟩
  · rw [s.load_of_long (Nat.lt_of_not_le hlen)]
    exact hs.congr rfl

/-- Settles O57, event by event; the loop of a tick keeps what every instruction step keeps. -/
theorem stepKeepsTheInvariant : Obligations.StepKeepsTheInvariant := by
  intro s t hs h
  have hrest : ∀ rest, State.Inv { s with events := rest } := fun _ => hs.congr rfl
  cases stepCase h with
  | instr rest _ ht => exact instrStep_keeps_inv _ t (hrest rest) ht
  | tick speed rest _ hspeed ht => exact tick_keeps_inv hspeed (hrest rest) ht
  | key code pressed rest _ ht => exact ht ▸ keyEvent_keeps_inv code pressed (hrest rest)
  | reset rest _ ht => exact ht ▸ resetEvent_keeps_inv (hrest rest)
  | load bytes rest _ ht => exact ht ▸ load_keeps_inv bytes (hrest rest)

/-- Settles O58: no memory listed, no fault, an empty stack, and `PC` at 0x200. -/
theorem resetMeetsTheInvariant : Obligations.ResetMeetsTheInvariant :=
  ⟨rfl, State.latchOk_of_no_fault rfl, (State.stackOk_iff _).2 fun _ hj => absurd hj (Nat.not_lt_zero _), by rfl⟩

end Sys2Proof.Machine
end
